-- ==== Sys2Proof/Word.lean ====
section
/-! DEFINITION. The word types of RMCORE: the 32-bit register word (rule R8), the 128-bit data of a vector register
(rule R14), register numbers (rule R46), and the pair a vector register holds (rule R14). -/

namespace Sys2Proof

/-- One 32-bit register or command word (rules R8, R45). -/
abbrev Word := BitVec 32

/-- One byte lane of the host port (rule R34). -/
abbrev Byte := BitVec 8

/-- The 128 data bits of a vector register; bit 0 is least significant (rules R9, R14). -/
abbrev Data := BitVec 128

/-- A vector register number, V0 to V7 (rules R14, R46). -/
abbrev VNum := Fin 8

/-- The contents of a vector register: a length and 128 data bits; length 0 means empty (rules R14, R16). -/
structure VReg where
  len  : Nat
  data : Data
  deriving DecidableEq, Repr

end Sys2Proof
end

