-- ==== Sys2Proof/Syntax.lean ====
section
/-! DEFINITION. The nine commands of the opcode map (rule R48), one constructor a row of spec/opcode_table.json, and their
assembler lines (rule R52). -/

namespace Sys2Proof

/-- The commands. A register operand is a register number; LOAD's length is the number the assembler was given, and
`Instr.wellFormed` says when it fits the IMM field. -/
inductive Instr where
  /-- LOAD vD, #len (rule R58) -/
  | load (vd : VNum) (len : Nat)
  /-- VXOR vD, vA, vB (rule R59) -/
  | vxor (vd va vb : VNum)
  /-- VAND vD, vA, vB (rule R60) -/
  | vand (vd va vb : VNum)
  /-- VNOT vD, vA (rule R61) -/
  | vnot (vd va : VNum)
  /-- ENC vD, vA (rule R66) -/
  | enc (vd va : VNum)
  /-- DEC vD, vA (rule R69) -/
  | dec (vd va : VNum)
  /-- HDIST vA, vB (rule R72) -/
  | hdist (va vb : VNum)
  /-- SRCH vD, vA (rule R76) -/
  | srch (vd va : VNum)
  /-- FSRCH vD, vA (rule R82) -/
  | fsrch (vd va : VNum)
  deriving DecidableEq, Repr

/-- The mnemonic of a command, as rule R48 spells it. -/
def Instr.mnemonic : Instr → String
  | .load _ _ => "LOAD"
  | .vxor _ _ _ => "VXOR"
  | .vand _ _ _ => "VAND"
  | .vnot _ _ => "VNOT"
  | .enc _ _ => "ENC"
  | .dec _ _ => "DEC"
  | .hdist _ _ => "HDIST"
  | .srch _ _ => "SRCH"
  | .fsrch _ _ => "FSRCH"

/-- A register's name, v0 to v7 (rule R52). -/
def regName (v : VNum) : String := "v" ++ toString v.val

/-- The operands of a command's assembler line, in the order of rule R52. -/
def Instr.operandTexts : Instr → List String
  | .load vd len => [regName vd, "#" ++ toString len]
  | .vxor vd va vb => [regName vd, regName va, regName vb]
  | .vand vd va vb => [regName vd, regName va, regName vb]
  | .vnot vd va => [regName vd, regName va]
  | .enc vd va => [regName vd, regName va]
  | .dec vd va => [regName vd, regName va]
  | .hdist va vb => [regName va, regName vb]
  | .srch vd va => [regName vd, regName va]
  | .fsrch vd va => [regName vd, regName va]

/-- The assembler line of a command (rule R52). -/
def Instr.asmLine (i : Instr) : String :=
  i.mnemonic ++ " " ++ String.intercalate ", " i.operandTexts

end Sys2Proof
end

