-- ==== Sys2Proof/WellFormed.lean ====
section
/-! DEFINITION. When a command can be assembled (rule R52). -/

namespace Sys2Proof

/-- A command is well formed when its operands fit their fields. Register numbers fit by their type, so the one check is
the assembler's: "The assembler checks only that len fits in 16 bits" (rule R52). A length that LOAD refuses (0, or more
than VMAX) is well formed. -/
def Instr.wellFormed : Instr → Bool
  | .load _ len => decide (len < 2 ^ 16)
  | .vxor _ _ _ => true
  | .vand _ _ _ => true
  | .vnot _ _ => true
  | .enc _ _ => true
  | .dec _ _ => true
  | .hdist _ _ => true
  | .srch _ _ => true
  | .fsrch _ _ => true

end Sys2Proof
end

