-- ==== Sys2Proof/Decode.lean ====
section
/-! DEFINITION. Command words: the decoder (rules R46 to R50), total on every word and on any bytes, rejecting by name, and
after it the encoder (rules R45, R52). -/

namespace Sys2Proof

/-- Why a word is no command. On this hardware every one of them makes the command raise IllegalCommand (rule R50). -/
inductive Illegal where
  /-- OP is 0x0 or 0xA to 0xF -/
  | undefinedOpcode
  /-- one of the reserved bits z0, z1, z2 is set -/
  | reservedBitSet
  /-- a field that the opcode's row marks "0" is nonzero -/
  | unusedFieldNonzero
  /-- the bytes are not exactly one 32-bit word (rule R51) -/
  | notOneWord
  deriving DecidableEq, Repr

/-! ### Fields (rule R46) -/

/-- OP, bits [3:0]. -/
def fieldOP (w : Word) : BitVec 4 := w.extractLsb' 0 4

/-- VD, bits [6:4], an unsigned register number (rule R47). -/
def fieldVD (w : Word) : VNum := Fin.ofNat 8 (w.extractLsb' 4 3).toNat

/-- VA, bits [10:8]. -/
def fieldVA (w : Word) : VNum := Fin.ofNat 8 (w.extractLsb' 8 3).toNat

/-- VB, bits [14:12]. -/
def fieldVB (w : Word) : VNum := Fin.ofNat 8 (w.extractLsb' 12 3).toNat

/-- IMM, bits [31:16], zero-extended, never scaled (rule R47). -/
def fieldIMM (w : Word) : Nat := (w.extractLsb' 16 16).toNat

/-- Whether one of z0 (bit 7), z1 (bit 11), z2 (bit 15) is set. -/
def reservedSet (w : Word) : Bool := w.getLsbD 7 || w.getLsbD 11 || w.getLsbD 15

/-! ### The opcode map (rules R48, R49) -/

/-- A row of the opcode map: a word is this command exactly when `w &&& mask = pattern`, and its operands are then read
from the word's fields. -/
structure OpRow where
  pattern : Word
  mask    : Word
  command : Word → Instr

/-- The rows of the opcode map, "match" and "mask" as rule R48 gives them. -/
def opRows : List OpRow :=
  [ ⟨0x00000001, 0x0000FF8F, fun w => .load (fieldVD w) (fieldIMM w)⟩,
    ⟨0x00000002, 0xFFFF888F, fun w => .vxor (fieldVD w) (fieldVA w) (fieldVB w)⟩,
    ⟨0x00000003, 0xFFFF888F, fun w => .vand (fieldVD w) (fieldVA w) (fieldVB w)⟩,
    ⟨0x00000004, 0xFFFFF88F, fun w => .vnot (fieldVD w) (fieldVA w)⟩,
    ⟨0x00000005, 0xFFFFF88F, fun w => .enc (fieldVD w) (fieldVA w)⟩,
    ⟨0x00000006, 0xFFFFF88F, fun w => .dec (fieldVD w) (fieldVA w)⟩,
    ⟨0x00000007, 0xFFFF88FF, fun w => .hdist (fieldVA w) (fieldVB w)⟩,
    ⟨0x00000008, 0xFFFFF88F, fun w => .srch (fieldVD w) (fieldVA w)⟩,
    ⟨0x00000009, 0xFFFFF88F, fun w => .fsrch (fieldVD w) (fieldVA w)⟩ ]

/-- Why a word that no row matches is illegal: the first reason of rule R50's list that applies. -/
def whyIllegal (w : Word) : Illegal :=
  if fieldOP w = 0 ∨ 10 ≤ (fieldOP w).toNat then .undefinedOpcode
  else if reservedSet w then .reservedBitSet
  else .unusedFieldNonzero

/-- The loop of rule R49 over the rows: the first row that the word matches says which command it is. -/
def decodeRows (w : Word) : List OpRow → Except Illegal Instr
  | [] => .error (whyIllegal w)
  | row :: rest => if w &&& row.mask = row.pattern then .ok (row.command w) else decodeRows w rest

/-- The decoder of rule R49, total over all 2^32 words; a word that no row matches is `Illegal`. -/
def decode (w : Word) : Except Illegal Instr := decodeRows w opRows

/-! ### Bytes (rule R34: little-endian) -/

/-- The four bytes of a word at rising addresses. -/
def bytesOfWord (w : Word) : List Byte :=
  [w.extractLsb' 0 8, w.extractLsb' 8 8, w.extractLsb' 16 8, w.extractLsb' 24 8]

/-- The word that four bytes at rising addresses make. -/
def wordOfBytes (b0 b1 b2 b3 : Byte) : Word := b3 ++ b2 ++ b1 ++ b0

/-- The decoder on bytes: exactly four of them make a command word (rule R51). -/
def decodeBytes : List Byte → Except Illegal Instr
  | [b0, b1, b2, b3] => decode (wordOfBytes b0 b1 b2 b3)
  | _ => .error .notOneWord

/-- The command the decoder reads from an instruction whose bits, numbered as spec/opcode_table.json numbers them, are
`w`; the bits above `nbits` are 0. -/
def decodeTableWord (nbits w : Nat) : Option Instr :=
  (decodeBytes (bytesOfWord (BitVec.ofNat 32 (w % 2 ^ nbits)))).toOption

/-! ### The encoder (rules R45, R52) -/

/-- The one format of rule R45: IMM, z2, VB, z1, VA, z0, VD, OP from bit 31 down, with the reserved bits 0. -/
def formatWord (op : BitVec 4) (vd va vb : VNum) (imm : Nat) : Word :=
  BitVec.ofNat 16 imm ++ 0#1 ++ BitVec.ofNat 3 vb.val ++ 0#1 ++ BitVec.ofNat 3 va.val ++ 0#1 ++ BitVec.ofNat 3 vd.val ++ op

/-- The opcode of a command (rule R48). -/
def Instr.opcode : Instr → BitVec 4
  | .load _ _ => 0x1
  | .vxor _ _ _ => 0x2
  | .vand _ _ _ => 0x3
  | .vnot _ _ => 0x4
  | .enc _ _ => 0x5
  | .dec _ _ => 0x6
  | .hdist _ _ => 0x7
  | .srch _ _ => 0x8
  | .fsrch _ _ => 0x9

/-- The word of a well-formed command (rule R52); of an ill-formed LOAD it keeps the low 16 bits of the length (DESIGN CHOICE,
notes/assumptions/19.md); the fields its row marks "0" are 0 (rule R48). -/
def encode (i : Instr) : Word :=
  match i with
  | .load vd len => formatWord i.opcode vd 0 0 len
  | .vxor vd va vb => formatWord i.opcode vd va vb 0
  | .vand vd va vb => formatWord i.opcode vd va vb 0
  | .vnot vd va => formatWord i.opcode vd va 0 0
  | .enc vd va => formatWord i.opcode vd va 0 0
  | .dec vd va => formatWord i.opcode vd va 0 0
  | .hdist va vb => formatWord i.opcode 0 va vb 0
  | .srch vd va => formatWord i.opcode vd va 0 0
  | .fsrch vd va => formatWord i.opcode vd va 0 0

end Sys2Proof
end

