-- ==== Sys2Proof/Machine/Bits.lean ====
section
/-! DEFINITION. The bit-vector primitives of the pseudocode (rules R10, R55, R56), each by structural recursion on a number of
bits. -/

namespace Sys2Proof.Machine

/-- The vector whose bit i is `f i` for i < n, and 0 for i ≥ n (n ≤ 128). -/
def tabulate (f : Nat → Bool) : Nat → Data
  | 0 => 0
  | n + 1 => if f n then tabulate f n ||| 1#128 <<< n else tabulate f n

/-- `mask(n)`: bits 0..n-1 set, all others clear (rule R55). -/
def mask (n : Nat) : Data := tabulate (fun _ => true) n

/-- How many of the bits 0..n-1 of v are 1. -/
def popcountBelow (v : Data) : Nat → Nat
  | 0 => 0
  | n + 1 => popcountBelow v n + (v.getLsbD n).toNat

/-- `popcount(v)`, the number of bits of v equal to 1 (rule R10). -/
def popcount (v : Data) : Nat := popcountBelow v 128

/-- The exclusive or of f 0, ..., f (n-1). -/
def xorBelow (f : Nat → Bool) : Nat → Bool
  | 0 => false
  | n + 1 => xorBelow f n ^^ f n

/-- `natlen(k)`: 1 for k = 0, else the index of the highest set bit plus 1 (rule R55). -/
def natlen (k : Data) : Nat := if k = 0 then 1 else 1 + Nat.log2 k.toNat

/-- v with bit i made b. -/
def setBit (v : Data) (i : Nat) (b : Bool) : Data :=
  if b then v ||| 1#128 <<< i else v &&& ~~~(1#128 <<< i)

/-- The loop of `plusOne` after it has passed bits 0..n-1: the vector so far and the carry (rule R56). -/
def plusOneLoop (v : Data) : Nat → Data × Bool
  | 0 => (v, true)
  | n + 1 =>
    let (u, carry) := plusOneLoop v n
    (setBit u n (u.getLsbD n ^^ carry), u.getLsbD n && carry)

/-- `plusOne(v, n)`: binary increment of an n-bit vector with the carry from index 0 upward; a final carry is dropped
(rule R56). -/
def plusOne (v : Data) (n : Nat) : Data := (plusOneLoop v n).1

/-- Word j of a 128-bit value, word 0 the least significant (rules R27, R28). -/
def dataWord (d : Data) (j : Fin 4) : Word := d.extractLsb' (32 * j.val) 32

/-- The 128-bit value of four words, word 0 the least significant (rule R27). -/
def dataOfWords (h : Vector Word 4) : Data := h[3] ++ h[2] ++ h[1] ++ h[0]

end Sys2Proof.Machine
end

