-- ==== Sys2Proof/Machine/Code.lean ====
section
/-! DEFINITION. The code of order r as functions of r: its dimensions (rule R3), the generator matrix G (rule R63), the encoding
function (rule R65), the decoding function (rule R68) and the Hamming distance (rule R71). Nothing here is stored
(rule R30). -/

namespace Sys2Proof.Machine

/-- startDim, the message length r + 1 (rule R3). -/
def startDim (r : Nat) : Nat := r + 1

/-- endDim, the codeword length 2^r (rule R3). -/
def endDim (r : Nat) : Nat := 2 ^ r

/-- G[i][c], entry of the generator matrix of order r: bit i of the column index for i < r, and 1 in row r (rule R63). -/
def genMatrix (r i c : Nat) : Bool := if i < r then c.testBit i else true

/-- Bit c of the product of the message with G: the XOR over j in [0, r+1) of m[j] AND G[j][c] (rule R65, first line). -/
def encodeBit (r : Nat) (m : Data) (c : Nat) : Bool :=
  xorBelow (fun j => m.getLsbD j && genMatrix r j c) (startDim r)

/-- ENCF(r, m), the codeword of a message (rule R65). -/
def encf (r : Nat) (m : Data) : Data := tabulate (encodeBit r m) (endDim r)

/-- Bit i of the recovered message: y[0] at i = r, and (y[0] AND G[r][2^i]) XOR y[2^i] below (rule R68). -/
def decodeBit (r : Nat) (y : Data) (i : Nat) : Bool :=
  if i = r then y.getLsbD 0 else (y.getLsbD 0 && genMatrix r r (2 ^ i)) ^^ y.getLsbD (2 ^ i)

/-- DECF(r, y), the message read off the positions 0, 1, 2, 4, ... of y (rule R68). -/
def decf (r : Nat) (y : Data) : Data := tabulate (decodeBit r y) (startDim r)

/-- HD(a, b, n), the Hamming distance of two vectors of length n (rule R71). -/
def hammingDist (a b : Data) (n : Nat) : Nat := popcount ((a ^^^ b) &&& mask n)

end Sys2Proof.Machine
end

