-- ==== Sys2Proof/Config.lean ====
section
/-! DEFINITION. The implementation parameters of rule R7: RMAX, VMAX and NVREG at this hardware's values, and the OPEN
parameters BASE and LAT as constants without a body. -/

namespace Sys2Proof.Config

/-- RMAX, the largest order the block accepts: 7 in this hardware (rule R7). -/
def rmax : Nat := 7

/-- VMAX = 2^RMAX, the width of a vector register's data in bits (rule R7). -/
def vmax : Nat := 2 ^ rmax

/-- NVREG, the number of vector registers (rules R7, R14). -/
def nvreg : Nat := 8

/-- The constant of the ID register, the ASCII bytes "RMC1" (rule R20). -/
def idWord : Word := 0x524D4331

/-- Which 512-byte slot of the host's address space holds the window: OPEN, the platform's (rules R7, R40). -/
opaque baseIndex : Nat

/-- BASE, the byte address of the register window, a multiple of 512 (rules R7, R40). -/
def base : Nat := 512 * baseIndex

/-- The size in bytes of the register window (rules R19, R33). -/
def windowSize : Nat := 512

/-- LAT, free but finite: how many steps of the port pass between the issue of a command and its completion.
The arguments are the running number of the issue, the command word, and what a command can read (ORDER.R, HDATA,
the vector registers), since LAT "may differ by command and input" (rules R7, R102; 93_implementation_defined.md U7).
No claim may rest on its value. -/
opaque latency : Nat → Word → BitVec 4 → Data → Vector VReg 8 → Nat

end Sys2Proof.Config
end

