-- ==== Sys2Proof/Machine/State.lean ====
section
/-! DEFINITION. The state of RMCORE as plain data (10_state.md), the error kinds (rule R84), the accesses that reach its port
(20_memory.md) and its reset line (rule R98), and the state after reset (rule R32). -/

namespace Sys2Proof.Machine

/-- The error kinds of rule R84, the two that are reserved and never raised among them. -/
inductive ErrorKind where
  /-- code 1, reserved, never raised -/
  | invalidBitValue
  /-- code 2: operand lengths differ, or an operand's length does not fit the order -/
  | lengthMismatch
  /-- code 3: LOAD's length is shorter than the value's natural length -/
  | sizeTooSmall
  /-- code 4, reserved, never raised -/
  | invalidProbability
  /-- code 5: ORDER.R is outside 1..RMAX -/
  | invalidOrder
  /-- code 6: the command word is illegal -/
  | illegalCommand
  /-- code 7: LOAD's length is more than VMAX -/
  | lengthOutOfRange
  /-- code 8: a source register is empty -/
  | emptyOperand
  deriving DecidableEq, Repr

/-- What the platform does at the block's port and reset line, one event at a time, in the one total order of rule R42. An
address is a byte address of the host's bus, a width a number of bytes. -/
inductive PortEvent where
  /-- `MemRead(addr, width)` (rule R10) -/
  | read (addr width : Nat)
  /-- `MemWrite(addr, width, x)`; of a write that is not 32 bits wide the value is never looked at (rule R35) -/
  | write (addr width : Nat) (x : Word)
  /-- the host's WAIT: it reads STATUS again and again until BUSY reads 0 (rule R53) -/
  | pollIdle
  /-- the platform asserts the reset input (rule R98) -/
  | resetAssert
  /-- the platform releases the reset input -/
  | resetRelease
  deriving DecidableEq, Repr

/-- A host access that the block has served, by its offset in the window. -/
inductive Access where
  /-- a read and what it answered -/
  | read (off width : Nat) (answer : Word)
  /-- a write and the value written, whatever its effect was -/
  | write (off width : Nat) (x : Word)
  deriving DecidableEq, Repr

/-- The registers of the window (rule R19). -/
inductive Reg where
  | id
  | param
  | order
  | dims
  | cmd
  | status
  | result0
  | result1
  /-- HDATA0 to HDATA3 -/
  | hdata (j : Fin 4)
  /-- data word j of the window of V[k] (rule R28) -/
  | vregData (k : VNum) (j : Fin 4)
  /-- the length word of the window of V[k] (rule R28) -/
  | vregLen (k : VNum)
  /-- an offset that the map gives no register (rule R37) -/
  | reserved
  deriving DecidableEq, Repr

/-- The state. The first group is the block's, as 10_state.md names it; DIMS, BUSY, ID, PARAM, G and H are computed from it
or constant (rules R20, R21, R23, R30). The second group is the port and the reset line. The third is the model's own. -/
structure State where
  /-- V0 to V7, the vector register file (rule R14) -/
  v : Vector VReg 8
  /-- ORDER.R (rule R22) -/
  order : BitVec 4
  /-- STATUS.ERR (rule R25) -/
  err : Bool
  /-- STATUS.OVR (rule R25) -/
  ovr : Bool
  /-- STATUS.ERRCODE (rule R25) -/
  errcode : BitVec 8
  /-- RESULT0 (rule R26) -/
  result0 : Word
  /-- RESULT1 (rule R26) -/
  result1 : Word
  /-- HDATA0 to HDATA3 (rule R27) -/
  hdata : Vector Word 4
  /-- CMDL, the in-flight command (rule R29); STATUS.BUSY is 1 exactly while there is one -/
  cmdl : Option Word
  /-- whether the reset input is asserted (rules R98, R99) -/
  inReset : Bool
  /-- what the platform will do at the port, oldest first (rule R42) -/
  inputs : List PortEvent
  /-- the accesses to the window that the block has served, with their answers, newest first (rules R42, R107) -/
  accesses : List Access
  /-- MODEL'S OWN: the steps of the port still to pass before the in-flight command completes (rule R102) -/
  wait : Nat
  /-- MODEL'S OWN: how many commands have been issued, the counter that free latencies are drawn with -/
  issues : Nat
  deriving DecidableEq, Repr

/-- Why the machine would stop with a fault: there is no reason. No rule of the spec gives this block a fault, since every
error is a code in STATUS and the block goes on (rules R85, R88, R90). Nothing raises one. -/
inductive Fault where
  deriving DecidableEq, Repr

/-- Why the model admits no step. -/
inductive Refusal where
  /-- raised by `exec` for an instruction that has no meaning yet; no arm does so. Safe. -/
  | notModelled (mnemonic : String)
  /-- raised by `serveEvent` when a host access reaches the window while reset is asserted: "The effect of a host access
  made while reset is asserted is unspecified. A model refuses such an access" (rule R99). Safe. -/
  | accessDuringReset
  deriving DecidableEq, Repr

/-- The state after reset (rule R32), with nothing at the port. Every register has the value the spec gives; the port, the
accesses served and the model's own fields start empty or 0 (DESIGN CHOICE, notes/assumptions/2.md and 4.md). -/
def State.reset : State where
  v := Vector.replicate 8 ⟨0, 0⟩
  order := 0
  err := false
  ovr := false
  errcode := 0
  result0 := 0
  result1 := 0
  hdata := Vector.replicate 4 0
  cmdl := none
  inReset := false
  inputs := []
  accesses := []
  wait := 0
  issues := 0

end Sys2Proof.Machine
end

