-- ==== Sys2Proof/Machine/Flags.lean ====
section
/-! DEFINITION. The fields of STATUS (rules R25, R31): the error codes, the word a read gives, and the write that clears. -/

namespace Sys2Proof.Machine

/-- The code of an error kind (rule R84). -/
def ErrorKind.code : ErrorKind → BitVec 8
  | .invalidBitValue => 1
  | .lengthMismatch => 2
  | .sizeTooSmall => 3
  | .invalidProbability => 4
  | .invalidOrder => 5
  | .illegalCommand => 6
  | .lengthOutOfRange => 7
  | .emptyOperand => 8

/-- STATUS.BUSY: 1 from the issue of a command until it completes, that is while CMDL is valid (rules R25, R29). -/
def State.busy (s : State) : Bool := s.cmdl.isSome

/-- What a read of STATUS gives: ERRCODE in [15:8], OVR, ERR and BUSY in [2:0], every reserved bit 0 (rule R25). -/
def State.statusWord (s : State) : Word :=
  0#16 ++ s.errcode ++ 0#5 ++ BitVec.ofBool s.ovr ++ BitVec.ofBool s.err ++ BitVec.ofBool s.busy

/-- A host write of x to STATUS clears ERR where bit 1 of x is 1 and OVR where bit 2 is 1, and changes nothing else
(rule R25). -/
def clearStatus (x : Word) (s : State) : State :=
  { s with err := s.err && !x.getLsbD 1, ovr := s.ovr && !x.getLsbD 2 }

end Sys2Proof.Machine
end

