-- ==== Sys2Proof/Machine/Ops.lean ====
section
/-! DEFINITION. The operations every command shares: reading and writing a vector register (rule R10), HDATA and ORDER,
ending a command with an error or with success (rules R85, R86), and reset (rule R98). -/

namespace Sys2Proof.Machine

/-- What a command, or a step, answers. -/
abbrev Answer := Host.Outcome State Fault Refusal

/-- `V[i]` (rule R10). -/
def State.vreg (s : State) (i : VNum) : VReg := s.v[i]

/-- `V[i] <- (n, d)` (rule R10). -/
def State.setVreg (s : State) (i : VNum) (n : Nat) (d : Data) : State :=
  { s with v := s.v.set i ⟨n, d⟩ }

/-- HDATA, the 128-bit host staging value (rule R27). -/
def State.hdataValue (s : State) : Data := dataOfWords s.hdata

/-- The order r held in ORDER.R (rule R22). -/
def State.orderNat (s : State) : Nat := s.order.toNat

/-- ORDER is valid when 1 ≤ R ≤ RMAX (rule R22). -/
def State.orderValid (s : State) : Bool := decide (1 ≤ s.orderNat ∧ s.orderNat ≤ Config.rmax)

/-- RESULT0 and RESULT1 get values (rule R26). -/
def State.setResults (s : State) (x0 x1 : Word) : State :=
  { s with result0 := x0, result1 := x1 }

/-- `raise E`: ERRCODE is the error's code, ERR is 1, BUSY is 0, and nothing else changes (rule R85). This is the whole of
what an error does on this block: it has no trap entry and no return from one (rules R90, R91). -/
def raiseError (e : ErrorKind) (s : State) : Answer :=
  .next { s with errcode := e.code, err := true, cmdl := none }

/-- `complete`: ERRCODE is 0 and BUSY is 0, and ERR is left as it was (rule R86). -/
def complete (s : State) : Answer :=
  .next { s with errcode := 0, cmdl := none }

/-- Reset of the block: every piece of its state gets the value of rule R32 and a command in flight is abandoned (rules R98,
R99). The platform's events, the accesses already served and the count of issues are not the block's state and stay. -/
def State.resetBlock (s : State) : State :=
  { State.reset with
    inReset := s.inReset, inputs := s.inputs, accesses := s.accesses, issues := s.issues }

end Sys2Proof.Machine
end

