-- ==== Sys2Proof/Machine/Operands.lean ====
section
/-! DEFINITION. The operand checks (rules R57, R62, R66, R69). Each raises its error or goes on with the rest of the command,
so that a command's checks run in the order its rule lists them (rule R87). -/

namespace Sys2Proof.Machine

/-- `needVec(i)`: raises EmptyOperand when V[i] is empty (rule R57). -/
def needVec (i : VNum) (s : State) (rest : Answer) : Answer :=
  if (s.vreg i).len = 0 then raiseError .emptyOperand s else rest

/-- `sameLen(a, b)`: raises LengthMismatch when the two lengths differ (rule R57). -/
def sameLen (a b : VNum) (s : State) (rest : Answer) : Answer :=
  if (s.vreg a).len ≠ (s.vreg b).len then raiseError .lengthMismatch s else rest

/-- The check of ENC, DEC, SRCH and FSRCH on their operand's length: raises LengthMismatch when V[i].len is not n. -/
def needLen (i : VNum) (n : Nat) (s : State) (rest : Answer) : Answer :=
  if (s.vreg i).len ≠ n then raiseError .lengthMismatch s else rest

/-- `needOrder()`: raises InvalidOrder when ORDER.R is outside 1..RMAX, and else binds r (rule R62). -/
def needOrder (s : State) (rest : Nat → Answer) : Answer :=
  if s.orderValid then rest s.orderNat else raiseError .invalidOrder s

end Sys2Proof.Machine
end

