-- ==== Sys2Proof/Machine/Encode.lean ====
section
/-! DEFINITION. ENC and DEC (41_encode.md, 42_decode.md). -/

namespace Sys2Proof.Machine

/-- ENC vD, vA: encode a message into a codeword, the vector-matrix product with G (rule R66). -/
def execEnc (vd va : VNum) (s : State) : Answer :=
  needOrder s fun r => needVec va s <| needLen va (startDim r) s <|
    complete (s.setVreg vd (endDim r) (encf r (s.vreg va).data))

/-- DEC vD, vA: recover the message from a codeword; an input that is no codeword is no error (rules R69, R70). -/
def execDec (vd va : VNum) (s : State) : Answer :=
  needOrder s fun r => needVec va s <| needLen va (endDim r) s <|
    complete (s.setVreg vd (startDim r) (decf r (s.vreg va).data))

end Sys2Proof.Machine
end

