-- ==== Sys2Proof/Machine/FastSearch.lean ====
section
/-! DEFINITION. The Hadamard transform search: FSRCH (44_fast_search.md). -/

namespace Sys2Proof.Machine

/-- H(k)[i][j] by the recursion of rule R78: four copies of H(k-1), the bottom right one negated. The recursion is carried one
level further down, to the 1 × 1 matrix [1], which gives the document's H(1). -/
def signMatrix : Nat → Nat → Nat → Int
  | 0, _, _ => 1
  | k + 1, i, j =>
    if 2 ^ k ≤ i ∧ 2 ^ k ≤ j then -signMatrix k (i % 2 ^ k) (j % 2 ^ k)
    else signMatrix k (i % 2 ^ k) (j % 2 ^ k)

/-- The sign of a bit, bit 0 -> +1, bit 1 -> -1 (rule R80). -/
def signOf (b : Bool) : Int := if b then -1 else 1

/-- The sum of f 0, ..., f (n-1). -/
def sumBelow (f : Nat → Int) : Nat → Int
  | 0 => 0
  | n + 1 => sumBelow f n + f n

/-- T[j], the transform of y: the sum over i of s[i] · H[i][j] (rule R80). -/
def transform (r : Nat) (y : Data) (j : Nat) : Int :=
  sumBelow (fun i => signOf (y.getLsbD i) * signMatrix r i j) (endDim r)

/-- The lowest index in [0, n) with the largest magnitude (rule R81). -/
def peakIndex (t : Nat → Int) : Nat → Nat
  | 0 => 0
  | n + 1 =>
    let best := peakIndex t n
    if (t best).natAbs < (t n).natAbs then n else best

/-- What FSRCH returns: the codeword, its message and the peak value (rule R81). -/
structure FastResult where
  codeword : Data
  msg      : Nat
  peak     : Int
  deriving DecidableEq, Repr

/-- FSRCHF(r, y): the sign of the peak picks the codeword or its complement (rule R81). A peak of 0 cannot happen (rules R80,
R81), so the branch that a 0 takes here is never taken (DESIGN CHOICE, notes/assumptions/10.md). -/
def fsrchf (r : Nat) (y : Data) : FastResult :=
  let at_ := peakIndex (transform r y) (endDim r)
  let peak := transform r y at_
  let msg := if peak < 0 then at_ + 2 ^ r else at_
  { codeword := encf r (BitVec.ofNat 128 msg), msg := msg, peak := peak }

/-- FSRCH vD, vA: replace a possibly noisy word by its nearest codeword, by the Hadamard transform (rule R82). -/
def execFsrch (vd va : VNum) (s : State) : Answer :=
  needOrder s fun r => needVec va s <| needLen va (endDim r) s <|
    let found := fsrchf r (s.vreg va).data
    complete ((s.setVreg vd (endDim r) found.codeword).setResults
      (BitVec.ofNat 32 found.msg) (BitVec.ofInt 32 found.peak))

end Sys2Proof.Machine
end

