-- ==== Sys2Proof/Machine/Search.lean ====
section
/-! DEFINITION. The distance evaluator and the exhaustive search: HDIST and SRCH (43_search.md). -/

namespace Sys2Proof.Machine

/-- f(c, y) = endDim - 2 · HD(c, y, endDim) (rule R73). -/
def score (r : Nat) (c y : Data) : Int := (endDim r : Int) - 2 * (hammingDist c y (endDim r) : Int)

/-- dist(f), the implied distance of a score (rule R73). -/
def impliedDist (r : Nat) (f : Int) : Int :=
  if 0 ≤ f then ((endDim r : Int) - f) / 2 else ((endDim r : Int) + f) / 2

/-- The best candidate so far: its message, its implied distance and its score (rule R75). -/
structure Best where
  msg   : Data
  dist  : Int
  score : Int
  deriving DecidableEq, Repr

/-- The candidate message m against the input y (rule R75). -/
def candidate (r : Nat) (y m : Data) : Best :=
  { msg := m, dist := impliedDist r (score r (encf r m) y), score := score r (encf r m) y }

/-- Keep the first minimum: a new candidate replaces the best only when its distance is strictly less (rule R75). -/
def keepFirst (best new : Best) : Best := if new.dist < best.dist then new else best

/-- The enumeration: k more candidates, from message m on, each the `plusOne` of the one before (rules R74, R75). -/
def searchLoop (r : Nat) (y : Data) : Nat → Data → Best → Best
  | 0, _, best => best
  | k + 1, m, best => searchLoop r y k (plusOne m (startDim r)) (keepFirst best (candidate r y m))

/-- The best of all 2^(r+1) candidates; the initial best is the first one, the all-zero message (rules R74, R75). -/
def searchBest (r : Nat) (y : Data) : Best :=
  searchLoop r y (2 ^ startDim r - 1) (plusOne 0 (startDim r)) (candidate r y 0)

/-- The message of the returned codeword: the best one, or its complement's on the negative branch (rule R75). -/
def searchMsg (r : Nat) (best : Best) : Data :=
  if 0 ≤ best.score then best.msg else best.msg ^^^ 1#128 <<< r

/-- What SRCH returns: the codeword, its message and its distance (rule R75). -/
structure SearchResult where
  codeword : Data
  msg      : Data
  dist     : Int
  deriving DecidableEq, Repr

/-- SRCHF(r, y) (rule R75). -/
def srchf (r : Nat) (y : Data) : SearchResult :=
  let best := searchBest r y
  { codeword := encf r (searchMsg r best), msg := searchMsg r best, dist := best.dist }

/-- HDIST vA, vB: RESULT0 gets the Hamming distance of the operands and RESULT1 gets 0 (rule R72). -/
def execHdist (va vb : VNum) (s : State) : Answer :=
  needVec va s <| needVec vb s <| sameLen va vb s <|
    complete (s.setResults
      (BitVec.ofNat 32 (hammingDist (s.vreg va).data (s.vreg vb).data (s.vreg va).len)) 0)

/-- SRCH vD, vA: replace a possibly noisy word by its nearest codeword (rule R76). -/
def execSrch (vd va : VNum) (s : State) : Answer :=
  needOrder s fun r => needVec va s <| needLen va (endDim r) s <|
    let found := srchf r (s.vreg va).data
    complete ((s.setVreg vd (endDim r) found.codeword).setResults
      (found.msg.setWidth 32) (BitVec.ofInt 32 found.dist))

end Sys2Proof.Machine
end

