-- ==== Sys2Proof/Machine/VectorAlgebra.lean ====
section
/-! DEFINITION. LOAD, VXOR, VAND and VNOT (40_vector_algebra.md). -/

namespace Sys2Proof.Machine

/-- LOAD vD, #n: V[VD] gets the length n and the value of HDATA (rule R58). -/
def execLoad (vd : VNum) (n : Nat) (s : State) : Answer :=
  if Config.vmax < n then raiseError .lengthOutOfRange s
  else if n < natlen s.hdataValue then raiseError .sizeTooSmall s
  else complete (s.setVreg vd n s.hdataValue)

/-- VXOR vD, vA, vB: componentwise GF(2) addition (rule R59). -/
def execVxor (vd va vb : VNum) (s : State) : Answer :=
  needVec va s <| needVec vb s <| sameLen va vb s <|
    complete (s.setVreg vd (s.vreg va).len ((s.vreg va).data ^^^ (s.vreg vb).data))

/-- VAND vD, vA, vB: componentwise GF(2) multiplication (rule R60). -/
def execVand (vd va vb : VNum) (s : State) : Answer :=
  needVec va s <| needVec vb s <| sameLen va vb s <|
    complete (s.setVreg vd (s.vreg va).len ((s.vreg va).data &&& (s.vreg vb).data))

/-- VNOT vD, vA: componentwise complement of the bits below the length (rule R61). -/
def execVnot (vd va : VNum) (s : State) : Answer :=
  needVec va s <|
    complete (s.setVreg vd (s.vreg va).len (~~~(s.vreg va).data &&& mask (s.vreg va).len))

end Sys2Proof.Machine
end

