-- ==== Sys2Proof/Machine/Dispatch.lean ====
section
/-! DEFINITION. What each command does at its completion: one arm per constructor of Instr. -/

namespace Sys2Proof.Machine

def exec (i : Instr) (s : State) : Host.Outcome State Fault Refusal :=
  match i with
  | .load vd len => Sys2Proof.Machine.execLoad vd len s
  | .vxor vd va vb => Sys2Proof.Machine.execVxor vd va vb s
  | .vand vd va vb => Sys2Proof.Machine.execVand vd va vb s
  | .vnot vd va => Sys2Proof.Machine.execVnot vd va s
  | .enc vd va => Sys2Proof.Machine.execEnc vd va s
  | .dec vd va => Sys2Proof.Machine.execDec vd va s
  | .hdist va vb => Sys2Proof.Machine.execHdist va vb s
  | .srch vd va => Sys2Proof.Machine.execSrch vd va s
  | .fsrch vd va => Sys2Proof.Machine.execFsrch vd va s

end Sys2Proof.Machine
end

