-- ==== Sys2Proof/Machine/Completion.lean ====
section
/-! DEFINITION. The completion of the in-flight command (rules R29, R50, R102). -/

namespace Sys2Proof.Machine

/-- The completion of the command word w as one atomic update: the command it decodes to is performed, and a word that is no
command raises IllegalCommand, reading no operand (rules R11, R29, R50, R87). -/
def runCommand (w : Word) (s : State) : Answer :=
  match decode w with
  | .ok i => exec i s
  | .error _ => raiseError .illegalCommand s

end Sys2Proof.Machine
end

