-- ==== Sys2Proof/Machine/Port.lean ====
section
/-! DEFINITION. The host register port: the register map (rule R19), reads and writes of its registers (rules R20 to R28, R37,
R38, R103), which accesses are served (rules R35, R36), and one event of the platform (rules R42, R98, R99). -/

namespace Sys2Proof.Machine

/-! ### The register map -/

/-- The register at an offset that is a multiple of 4 (rule R19). -/
def regAt (off : Nat) : Reg :=
  if off = 0x000 then .id
  else if off = 0x004 then .param
  else if off = 0x008 then .order
  else if off = 0x00C then .dims
  else if off = 0x010 then .cmd
  else if off = 0x014 then .status
  else if off = 0x018 then .result0
  else if off = 0x01C then .result1
  else if off < 0x030 then .hdata (Fin.ofNat 4 ((off - 0x020) / 4))
  else if off < 0x100 then .reserved
  else if off % 0x20 < 0x10 then .vregData (Fin.ofNat 8 ((off - 0x100) / 0x20)) (Fin.ofNat 4 (off % 0x20 / 4))
  else if off % 0x20 = 0x10 then .vregLen (Fin.ofNat 8 ((off - 0x100) / 0x20))
  else .reserved

/-- PARAM: RMAX in [7:0], NVREG in [15:8], VMAX in [31:16] (rule R21). -/
def paramWord : Word :=
  BitVec.ofNat 16 Config.vmax ++ BitVec.ofNat 8 Config.nvreg ++ BitVec.ofNat 8 Config.rmax

/-- DIMS: 2^R in [31:16] and R + 1 in [7:0] when ORDER is valid, else 0 (rule R23). -/
def State.dimsWord (s : State) : Word :=
  if s.orderValid then BitVec.ofNat 16 (2 ^ s.orderNat) ++ 0#8 ++ BitVec.ofNat 8 (s.orderNat + 1) else 0

/-- What a read of a register gives; no read has a side effect (rules R20 to R28, R37, R38). -/
def readReg (reg : Reg) (s : State) : Word :=
  match reg with
  | .id => Config.idWord
  | .param => paramWord
  | .order => s.order.setWidth 32
  | .dims => s.dimsWord
  | .cmd => 0
  | .status => s.statusWord
  | .result0 => s.result0
  | .result1 => s.result1
  | .hdata j => s.hdata[j]
  | .vregData k j => dataWord (s.vreg k).data j
  | .vregLen k => BitVec.ofNat 32 ((s.vreg k).len % 256)
  | .reserved => 0

/-- The issue of a command: CMDL gets the word, whatever it decodes to, and BUSY becomes 1 (rules R24, R50); when it will
complete is free (rule R102). -/
def issue (x : Word) (s : State) : State :=
  { s with
    cmdl := some x
    wait := Config.latency s.issues x s.order s.hdataValue s.v
    issues := s.issues + 1 }

/-- A write to CMD, ORDER or HDATA has its effect while BUSY = 0; while BUSY = 1 it is ignored and sets OVR (rule R103). -/
def unlessBusy (s effect : State) : State :=
  if s.busy then { s with ovr := true } else effect

/-- What a write of a register does; a read-only or reserved register ignores it (rules R22, R24, R25, R27, R37, R38). -/
def writeReg (reg : Reg) (x : Word) (s : State) : State :=
  match reg with
  | .order => unlessBusy s { s with order := x.setWidth 4 }
  | .cmd => unlessBusy s (issue x s)
  | .hdata j => unlessBusy s { s with hdata := s.hdata.set j x }
  | .status => clearStatus x s
  | .id => s
  | .param => s
  | .dims => s
  | .result0 => s
  | .result1 => s
  | .vregData _ _ => s
  | .vregLen _ => s
  | .reserved => s

/-! ### Accesses at the port -/

/-- An access is served when it is 32 bits wide and its offset is a multiple of 4 (rule R35). -/
def served (off width : Nat) : Bool := decide (width = 4 ∧ off % 4 = 0)

/-- The value a read in the window returns; one that is not served returns 0 (rules R35, R36). -/
def portRead (off width : Nat) (s : State) : Word :=
  if served off width then readReg (regAt off) s else 0

/-- The effect of a write in the window; one that is not served is ignored (rules R35, R36). -/
def portWrite (off width : Nat) (x : Word) (s : State) : State :=
  if served off width then writeReg (regAt off) x s else s

/-- Byte lane `off` of the window as the host's little-endian bus sees it: byte b of a register is its bits [8b+7:8b]
(rule R34). It is a view; no access is one byte wide. -/
def windowByte (s : State) (off : Nat) : Byte :=
  (readReg (regAt (off - off % 4)) s).extractLsb' (8 * (off % 4)) 8

/-- The offset in the window of a bus address, if the window holds it (rules R19, R40). -/
def windowOffset (addr : Nat) : Option Nat :=
  if Config.base ≤ addr ∧ addr < Config.base + Config.windowSize then some (addr - Config.base) else none

/-- An access has been served: it is put before the earlier ones. -/
def State.record (s : State) (a : Access) : State := { s with accesses := a :: s.accesses }

/-- The block answers a read (rules R36, R42). -/
def State.serveRead (s : State) (off width : Nat) : State := s.record (.read off width (portRead off width s))

/-- The block serves a write (rules R36, R42). -/
def State.serveWrite (s : State) (off width : Nat) (x : Word) : State :=
  (portWrite off width x s).record (.write off width x)

/-- The step of an access that reaches the window: refused while reset is asserted (rule R99). -/
def unlessReset (s after : State) : Answer :=
  if s.inReset then .refused .accessDuringReset else .next after

/-- One event of the platform. An access outside the window is the platform's business and does nothing to the block
(rule R40). A WAIT reads STATUS, and stays at the head of the inputs while BUSY reads 1 (rule R53). -/
def serveEvent (e : PortEvent) (s : State) : Answer :=
  match e with
  | .read addr width =>
    match windowOffset addr with
    | some off => unlessReset s (s.serveRead off width)
    | none => .next s
  | .write addr width x =>
    match windowOffset addr with
    | some off => unlessReset s (s.serveWrite off width x)
    | none => .next s
  | .pollIdle =>
    unlessReset s
      (if s.busy then { s.serveRead 0x014 4 with inputs := .pollIdle :: s.inputs } else s.serveRead 0x014 4)
  | .resetAssert => .next { s.resetBlock with inReset := true }
  | .resetRelease => .next { s with inReset := false }

/-- The next event at the port; with none the block keeps all its state (rules R42, R96). -/
def serveNext (s : State) : Answer :=
  match s.inputs with
  | [] => .next s
  | e :: rest => serveEvent e { s with inputs := rest }

end Sys2Proof.Machine
end

