-- ==== Sys2Proof/Machine/Step.lean ====
section
/-! DEFINITION. One step of the block, in the one total order of host accesses and completions (rule R42). -/

namespace Sys2Proof.Machine

/-- One step: the completion of the in-flight command when it is due, else the next event at the port, one step nearer to
that completion (rules R42, R102). -/
def step (s : State) : Host.Outcome State Fault Refusal :=
  match s.cmdl with
  | some w => if s.wait = 0 then runCommand w s else serveNext { s with wait := s.wait - 1 }
  | none => serveNext s

/-- s with the word of an instruction latched in CMDL, as the CMD write that issues it leaves it, reset released and the
completion due, so that the very next step performs it. The block fetches nothing (rule R18): CMDL is where a command
stands when it is performed (notes/assumptions/3.md). -/
def State.withFetchWord (s : State) (nbits w : Nat) : State :=
  { s with cmdl := some (BitVec.ofNat 32 (w % 2 ^ nbits)), wait := 0, inReset := false }

end Sys2Proof.Machine
end

