-- ==== Sys2Proof/Machine/HostProgram.lean ====
section
/-! DEFINITION. What a host writes: command lines, the pseudo-instructions of rule R53 with their expansions into accesses at
the port, and the end of a host program (rule R107). -/

namespace Sys2Proof.Machine

/-- One line of a host program (rules R52, R53). -/
inductive HostLine where
  /-- a command line: ISSUE, then WAIT -/
  | command (i : Instr)
  /-- VMOV vD, vA -/
  | vmov (vd va : VNum)
  /-- VZERO vD, vA -/
  | vzero (vd va : VNum)
  /-- VEQ vA, vB -/
  | veq (va vb : VNum)
  /-- SETORDER r -/
  | setOrder (r : Word)
  /-- SETDATA x -/
  | setData (x : Data)
  /-- LDV vD, #len, x -/
  | ldv (vd : VNum) (len : Nat) (x : Data)
  /-- ISSUE c, with no WAIT -/
  | issue (i : Instr)
  /-- a word written to CMD, with no WAIT -/
  | issueWord (w : Word)
  /-- WAIT -/
  | wait
  /-- CLRERR -/
  | clrErr
  /-- a register read by the host's own code -/
  | memRead (off : Nat)
  deriving DecidableEq, Repr

/-- `MemRead(BASE+off, 4)` (rule R10). -/
def memRead (off : Nat) : PortEvent := .read (Config.base + off) 4

/-- `MemWrite(BASE+off, 4, x)` (rule R10). -/
def memWrite (off : Nat) (x : Word) : PortEvent := .write (Config.base + off) 4 x

/-- ISSUE of a word: the write to CMD (rule R53). -/
def issueEvent (w : Word) : PortEvent := memWrite 0x010 w

/-- SETDATA x: the four writes to HDATA, low word first (rule R53). -/
def setDataEvents (x : Data) : List PortEvent :=
  [memWrite 0x020 (dataWord x 0), memWrite 0x024 (dataWord x 1), memWrite 0x028 (dataWord x 2), memWrite 0x02C (dataWord x 3)]

/-- A command line: ISSUE followed by WAIT (rule R53). -/
def commandEvents (i : Instr) : List PortEvent := [issueEvent (encode i), .pollIdle]

/-- The accesses a line of a host program makes (rule R53). A line whose `#len` does not fit in 16 bits is not refused here: it
issues the word of its length modulo 2^16, as `encode` lays it out (DESIGN CHOICE, notes/assumptions/19.md). -/
def HostLine.events : HostLine → List PortEvent
  | .command i => commandEvents i
  | .vmov vd va => commandEvents (.vand vd va va)
  | .vzero vd va => commandEvents (.vxor vd va va)
  | .veq va vb => commandEvents (.hdist va vb)
  | .setOrder r => [memWrite 0x008 r]
  | .setData x => setDataEvents x
  | .ldv vd len x => setDataEvents x ++ commandEvents (.load vd len)
  | .issue i => [issueEvent (encode i)]
  | .issueWord w => [issueEvent w]
  | .wait => [.pollIdle]
  | .clrErr => [memWrite 0x014 0x00000006]
  | .memRead off => [Sys2Proof.Machine.memRead off]

/-- The accesses of a host program, in order (rule R107). -/
def programEvents (lines : List HostLine) : List PortEvent := lines.flatMap HostLine.events

/-- s as a host program starts: the port holds the program's accesses and none of them is made yet (rule R107). -/
def State.withProgram (s : State) (lines : List HostLine) : State :=
  { s with inputs := programEvents lines, accesses := [] }

/-- Whether, of the accesses made, newest first, the last STATUS read returned BUSY = 0 and no CMD write is later than it
(rule R107). -/
def idleSeen : List Access → Bool
  | [] => false
  | .read off width answer :: earlier =>
    if off = 0x014 ∧ width = 4 then !answer.getLsbD 0 else idleSeen earlier
  | .write off width _ :: earlier =>
    if off = 0x010 ∧ width = 4 then false else idleSeen earlier

/-- Whether a host program has ended: its last access is made, and the last STATUS read it made returned BUSY = 0 after its last
CMD write (rule R107). -/
def State.ended (s : State) : Bool := s.inputs.isEmpty && idleSeen s.accesses

end Sys2Proof.Machine
end

