-- ==== Sys2Proof/Safety.lean ====
section
/-! DEFINITION. What claims call a well-formed state and a safe run: the invariant of the block, and the steps that answer a next
state. -/

namespace Sys2Proof.Machine

/-- A vector register's length is at most VMAX and its bits at and above the length are 0 (rules R14, R15). -/
abbrev RegWf (x : VReg) : Prop := x.len ≤ 128 ∧ ∀ k < 128, x.len ≤ k → x.data.getLsbD k = false

/-- Every vector register is well formed (rule R15). -/
abbrev VregsWf (s : State) : Prop := ∀ i : VNum, RegWf (s.vreg i)

/-- ERRCODE holds 0 or a code that a command can raise: never 1, never 4, never 9 or more (rule R84). -/
abbrev ErrcodeLegal (s : State) : Prop := s.errcode ∈ ([0, 2, 3, 5, 6, 7, 8] : List (BitVec 8))

/-- RESULT0 is at most 255 and RESULT1, as a signed value, lies in [-128, 128] (rule R26 at RMAX = 7). -/
abbrev ResultsInRange (s : State) : Prop :=
  s.result0.toNat ≤ 255 ∧ -128 ≤ s.result1.toInt ∧ s.result1.toInt ≤ 128

/-- While reset is asserted the block holds the state of rule R32 (rules R98, R99). -/
abbrev ResetHeld (s : State) : Prop := s.inReset = true → s.resetBlock = s

/-- Once a STATUS read has returned BUSY = 0 and no CMD write is later, no command is in flight (rule R43). -/
abbrev IdleSeenHolds (s : State) : Prop := idleSeen s.accesses = true → s.cmdl = none

/-- The invariant of the block. -/
abbrev State.Inv (s : State) : Prop := VregsWf s ∧ ErrcodeLegal s ∧ ResultsInRange s ∧ ResetHeld s ∧ IdleSeenHolds s

/-- No event at the port asserts reset. -/
abbrev NoReset (s : State) : Prop := PortEvent.resetAssert ∉ s.inputs

/-- A run of k steps is safe when it meets no fault and no refusal. -/
def SafeRun (k : Nat) (s : State) : Prop := ∃ t, Host.Core.run Sys2Proof.core k s = .next t

end Sys2Proof.Machine
end

