-- ==== Sys2Proof/Certificates/Slice0/Obligations.lean ====
section
/-! DEFINITION. The statements about RMCORE, from the numbered rules of spec/. Where a next state is written out, it is written
with the fields of State and the literal codes of rule R84, so that it can be read beside the rule. -/

open Sys2Proof Sys2Proof.Machine

/-! ### Command words (30_encoding.md) -/

/-- Words that the spec writes out decode to the commands it says they are (95_test_vectors.md sections 1, 2 and 3). -/
def Obligations.SpecWordsDecode : Prop :=
  decode 0x00040001 = .ok (.load 0 4) ∧ decode 0x00002132 = .ok (.vxor 3 1 2) ∧
  decode 0x00002133 = .ok (.vand 3 1 2) ∧ decode 0x00000124 = .ok (.vnot 2 1) ∧
  decode 0x00000015 = .ok (.enc 1 0) ∧ decode 0x00000126 = .ok (.dec 2 1) ∧
  decode 0x00002107 = .ok (.hdist 1 2) ∧ decode 0x00000128 = .ok (.srch 2 1) ∧
  decode 0x00000129 = .ok (.fsrch 2 1)

/-- Rule R48: a word is a command exactly when it matches the command's row, and its operands are then the bits of VD, VA, VB
and IMM; the opcodes 0x0 and 0xA to 0xF are illegal. -/
def Obligations.OpcodeMapDecodes : Prop :=
  ∀ w : Word,
    let vd : VNum := Fin.ofNat 8 (w.toNat / 2 ^ 4)
    let va : VNum := Fin.ofNat 8 (w.toNat / 2 ^ 8)
    let vb : VNum := Fin.ofNat 8 (w.toNat / 2 ^ 12)
    let imm : Nat := w.toNat / 2 ^ 16
    (w &&& 0x0000FF8F = 0x00000001 ↔ decode w = .ok (.load vd imm)) ∧
    (w &&& 0xFFFF888F = 0x00000002 ↔ decode w = .ok (.vxor vd va vb)) ∧
    (w &&& 0xFFFF888F = 0x00000003 ↔ decode w = .ok (.vand vd va vb)) ∧
    (w &&& 0xFFFFF88F = 0x00000004 ↔ decode w = .ok (.vnot vd va)) ∧
    (w &&& 0xFFFFF88F = 0x00000005 ↔ decode w = .ok (.enc vd va)) ∧
    (w &&& 0xFFFFF88F = 0x00000006 ↔ decode w = .ok (.dec vd va)) ∧
    (w &&& 0xFFFF88FF = 0x00000007 ↔ decode w = .ok (.hdist va vb)) ∧
    (w &&& 0xFFFFF88F = 0x00000008 ↔ decode w = .ok (.srch vd va)) ∧
    (w &&& 0xFFFFF88F = 0x00000009 ↔ decode w = .ok (.fsrch vd va)) ∧
    (w.toNat % 16 = 0 ∨ 10 ≤ w.toNat % 16 → ∃ e, decode w = .error e)

/-- Rule R49: a word is a command exactly when OP is 0x1 to 0x9, z0, z1 and z2 are 0, and every field that the opcode's row marks
"0" is zero; the row that a word matches says which command it is, no word matches two rows, and every other word is illegal. -/
def Obligations.DecodeIsTotalByRows : Prop :=
  ∀ w : Word,
    let op := w.toNat % 16
    let vd := w.toNat / 2 ^ 4 % 8
    let va := w.toNat / 2 ^ 8 % 8
    let vb := w.toNat / 2 ^ 12 % 8
    let imm := w.toNat / 2 ^ 16
    ((∃ i, decode w = .ok i) ↔
      1 ≤ op ∧ op ≤ 9 ∧ w.getLsbD 7 = false ∧ w.getLsbD 11 = false ∧ w.getLsbD 15 = false ∧
      (op = 1 → va = 0 ∧ vb = 0) ∧ (op = 2 ∨ op = 3 → imm = 0) ∧
      (op = 4 ∨ op = 5 ∨ op = 6 ∨ op = 8 ∨ op = 9 → vb = 0 ∧ imm = 0) ∧
      (op = 7 → vd = 0 ∧ imm = 0)) ∧
    (∀ row ∈ opRows, w &&& row.mask = row.pattern → decode w = .ok (row.command w)) ∧
    (opRows.filter fun row => w &&& row.mask = row.pattern).length ≤ 1 ∧
    ((∀ row ∈ opRows, w &&& row.mask ≠ row.pattern) → ∃ e, decode w = .error e)

/-- Decoding the word of a well-formed command gives the command back, with every operand. -/
def Obligations.DecodeEncodeRoundTrip : Prop :=
  ∀ i : Instr, i.wellFormed = true → decode (encode i) = .ok i

/-- A word that is a command is the word of that command, which is well formed: no two words mean one command. -/
def Obligations.EachCommandHasOneWord : Prop :=
  ∀ (w : Word) (i : Instr), decode w = .ok i → i.wellFormed = true ∧ encode i = w

/-- Rule R50: an illegal word is still issued, and at its completion it raises IllegalCommand and does nothing else, whatever
the registers hold; and the words of the rule's list are illegal. -/
def Obligations.IllegalWordRaisesIllegalCommand : Prop :=
  (∀ (w : Word) (e : Illegal) (s : State), decode w = .error e → s.busy = false →
    (portWrite 0x010 4 w s).busy = true ∧ (portWrite 0x010 4 w s).cmdl = some w) ∧
  (∀ (w : Word) (e : Illegal) (s : State), decode w = .error e → s.cmdl = some w → s.wait = 0 →
    step s = .next { s with errcode := 6, err := true, cmdl := none }) ∧
  (∀ w : Word,
    let op := w.toNat % 16
    (op = 0 ∨ 10 ≤ op ∨ w.getLsbD 7 = true ∨ w.getLsbD 11 = true ∨ w.getLsbD 15 = true ∨
      (op = 1 ∧ w.toNat / 2 ^ 8 % 2 ^ 8 ≠ 0) ∨ ((op = 2 ∨ op = 3) ∧ w.toNat / 2 ^ 16 ≠ 0) ∨
      ((op = 4 ∨ op = 5 ∨ op = 6 ∨ op = 8 ∨ op = 9) ∧ w.toNat / 2 ^ 12 ≠ 0) ∨
      (op = 7 ∧ (w.toNat / 2 ^ 4 % 8 ≠ 0 ∨ w.toNat / 2 ^ 16 ≠ 0))) →
    ∃ e, decode w = .error e)

/-! ### The step -/

/-- A step runs the decoded command: when the completion of the in-flight command is due and CMDL decodes to a command, the step
is that command's effect. Otherwise it serves the oldest event at the port, one step nearer to the completion of a command in
flight; with nothing at the port the block keeps its state. When a completion is due is the model's free choice
(notes/assumptions/1.md), and that it comes before the next event of the port (notes/assumptions/13.md). -/
def Obligations.StepRunsDecodedCommand : Prop :=
  (∀ (s : State) (w : Word) (i : Instr), s.cmdl = some w → s.wait = 0 → decode w = .ok i → step s = exec i s) ∧
  ∀ s : State, (s.cmdl = none ∨ s.wait ≠ 0) →
    let u := if s.cmdl = none then s else { s with wait := s.wait - 1 }
    (s.inputs = [] → step s = .next u) ∧
    ∀ e rest, s.inputs = e :: rest → step s = serveEvent e { u with inputs := rest }

/-- Every command answers a next state from every state: no command faults and none is refused. -/
def Obligations.EveryCommandCompletes : Prop :=
  ∀ (i : Instr) (s : State), ∃ t, exec i s = .next t ∧ t.cmdl = none

/-- A step never faults, and it is refused exactly when reset is asserted, no completion is due, and the event at the head of the
port is a STATUS poll or an access that reaches the window (rule R99). -/
def Obligations.StepStopsOnlyDuringReset : Prop :=
  ∀ s : State, (∀ f, step s ≠ .fault f) ∧
    (∀ why, step s = .refused why → why = .accessDuringReset) ∧
    (step s = .refused .accessDuringReset ↔
      s.inReset = true ∧ (s.cmdl = none ∨ s.wait ≠ 0) ∧
      ∃ e rest, s.inputs = e :: rest ∧
        (e = .pollIdle ∨ (∃ addr width off, e = .read addr width ∧ windowOffset addr = some off) ∨
          ∃ addr width x off, e = .write addr width x ∧ windowOffset addr = some off))

/-! ### GF(2) vector algebra (40_vector_algebra.md) -/

/-- Rule R58, LOAD: the word, the two errors in their order, and the vector loaded with all else kept. -/
def Obligations.LoadFollowsRule : Prop :=
  ∀ (vd : VNum) (n : Nat) (s : State),
    (n < 65536 → (encode (.load vd n)).toNat = n * 2 ^ 16 + vd.val * 16 + 0x1) ∧
    (128 < n → exec (.load vd n) s = .next { s with errcode := 7, err := true, cmdl := none }) ∧
    (n ≤ 128 → n < natlen s.hdataValue →
      exec (.load vd n) s = .next { s with errcode := 3, err := true, cmdl := none }) ∧
    (n = 0 → exec (.load vd n) s = .next { s with errcode := 3, err := true, cmdl := none }) ∧
    (n ≤ 128 → natlen s.hdataValue ≤ n →
      exec (.load vd n) s = .next { s with v := s.v.set vd ⟨n, s.hdataValue⟩, errcode := 0, cmdl := none } ∧
      ∀ k, n ≤ k → s.hdataValue.getLsbD k = false)

/-- Rule R59, VXOR: the word, the errors in their order, and the componentwise sum with all else kept. -/
def Obligations.VxorFollowsRule : Prop :=
  ∀ (vd va vb : VNum) (s : State),
    (encode (.vxor vd va vb)).toNat = vb.val * 2 ^ 12 + va.val * 2 ^ 8 + vd.val * 16 + 0x2 ∧
    ((s.vreg va).len = 0 ∨ (s.vreg vb).len = 0 →
      exec (.vxor vd va vb) s = .next { s with errcode := 8, err := true, cmdl := none }) ∧
    ((s.vreg va).len ≠ 0 → (s.vreg vb).len ≠ 0 → (s.vreg va).len ≠ (s.vreg vb).len →
      exec (.vxor vd va vb) s = .next { s with errcode := 2, err := true, cmdl := none }) ∧
    ((s.vreg va).len ≠ 0 → (s.vreg va).len = (s.vreg vb).len →
      ∃ d : Data, (∀ k < 128, d.getLsbD k = ((s.vreg va).data.getLsbD k ^^ (s.vreg vb).data.getLsbD k)) ∧
        exec (.vxor vd va vb) s =
          .next { s with v := s.v.set vd ⟨(s.vreg va).len, d⟩, errcode := 0, cmdl := none })

/-- Rule R60, VAND: the word, the errors in their order, and the componentwise product with all else kept. -/
def Obligations.VandFollowsRule : Prop :=
  ∀ (vd va vb : VNum) (s : State),
    (encode (.vand vd va vb)).toNat = vb.val * 2 ^ 12 + va.val * 2 ^ 8 + vd.val * 16 + 0x3 ∧
    ((s.vreg va).len = 0 ∨ (s.vreg vb).len = 0 →
      exec (.vand vd va vb) s = .next { s with errcode := 8, err := true, cmdl := none }) ∧
    ((s.vreg va).len ≠ 0 → (s.vreg vb).len ≠ 0 → (s.vreg va).len ≠ (s.vreg vb).len →
      exec (.vand vd va vb) s = .next { s with errcode := 2, err := true, cmdl := none }) ∧
    ((s.vreg va).len ≠ 0 → (s.vreg va).len = (s.vreg vb).len →
      ∃ d : Data, (∀ k < 128, d.getLsbD k = ((s.vreg va).data.getLsbD k && (s.vreg vb).data.getLsbD k)) ∧
        exec (.vand vd va vb) s =
          .next { s with v := s.v.set vd ⟨(s.vreg va).len, d⟩, errcode := 0, cmdl := none })

/-- Rule R61, VNOT: the word, the error, and the complement of the bits below the length with all else kept; VNOT of the result
gives a well-formed operand back. -/
def Obligations.VnotFollowsRule : Prop :=
  ∀ (vd va : VNum) (s : State),
    (encode (.vnot vd va)).toNat = va.val * 2 ^ 8 + vd.val * 16 + 0x4 ∧
    ((s.vreg va).len = 0 → exec (.vnot vd va) s = .next { s with errcode := 8, err := true, cmdl := none }) ∧
    ((s.vreg va).len ≠ 0 →
      ∃ d : Data, (∀ k < 128, d.getLsbD k = (decide (k < (s.vreg va).len) && !(s.vreg va).data.getLsbD k)) ∧
        exec (.vnot vd va) s =
          .next { s with v := s.v.set vd ⟨(s.vreg va).len, d⟩, errcode := 0, cmdl := none }) ∧
    ((s.vreg va).len ≠ 0 → RegWf (s.vreg va) → ∀ vc : VNum, ∃ t u,
      exec (.vnot vd va) s = .next t ∧ exec (.vnot vc vd) t = .next u ∧ u.vreg vc = s.vreg va)

/-- The three command pseudo-instructions: VMOV copies, VZERO clears and keeps the length, VEQ tells whether two well-formed
vectors of one length are equal (30_encoding.md section 6). -/
def Obligations.PseudoCommandEffects : Prop :=
  ∀ (vd va vb : VNum) (s : State), (s.vreg va).len ≠ 0 →
    (∃ t, exec (.vand vd va va) s = .next t ∧ t.vreg vd = s.vreg va) ∧
    (∃ t, exec (.vxor vd va va) s = .next t ∧ t.vreg vd = ⟨(s.vreg va).len, 0⟩) ∧
    (RegWf (s.vreg va) → RegWf (s.vreg vb) → (s.vreg va).len = (s.vreg vb).len →
      ∃ t, exec (.hdist va vb) s = .next t ∧ (t.result0 = 0 ↔ s.vreg va = s.vreg vb))

/-- Rules R55 and R56: the bits of `mask(n)`; `natlen(k)`, which is 1 at 0 and else the index of the highest set bit plus 1; and
`plusOne`, which adds 1 modulo 2^n and from the all-zero vector takes exactly 2^n applications to come back. -/
def Obligations.BitPrimitives : Prop :=
  (∀ n ≤ 128, ∀ i < 128, (mask n).getLsbD i = decide (i < n)) ∧
  natlen 0 = 1 ∧
  (∀ k : Data, k ≠ 0 → ∃ i < 128, natlen k = 1 + i ∧ k.getLsbD i = true ∧ ∀ j, i < j → k.getLsbD j = false) ∧
  ∀ n : Nat, 1 ≤ n → n ≤ 128 →
    (∀ v : Data, v.toNat < 2 ^ n → (plusOne v n).toNat = (v.toNat + 1) % 2 ^ n) ∧
    (fun v => plusOne v n)^[2 ^ n] 0 = 0 ∧
    ∀ k, 0 < k → k < 2 ^ n → (fun v => plusOne v n)^[k] 0 ≠ 0

/-! ### The code, ENC and DEC (41_encode.md, 42_decode.md) -/

/-- Rules R63 and R64: the entries of the generator matrix; row i starts with 2^i zeros, alternates, and has period 2^(i+1); column
c reads as c; column 0 has a 1 in row r only, and column 2^i in rows i and r only; and the rows of order 3. -/
def Obligations.GeneratorMatrix : Prop :=
  (∀ r, 1 ≤ r → r ≤ 7 → ∀ c < 2 ^ r, genMatrix r r c = true ∧ ∀ i < r, genMatrix r i c = c.testBit i) ∧
  (∀ r, 1 ≤ r → r ≤ 7 → ∀ i < r,
    (∀ c, genMatrix r i c = decide (2 ^ i ≤ c % 2 ^ (i + 1))) ∧
    (∀ c, genMatrix r i (c + 2 ^ (i + 1)) = genMatrix r i c) ∧
    genMatrix r i 0 = false ∧
    ∀ j ≤ r, genMatrix r j (2 ^ i) = (decide (j = i) || decide (j = r))) ∧
  (tabulate (genMatrix 3 0) 8 = 0xAA ∧ tabulate (genMatrix 3 1) 8 = 0xCC ∧ tabulate (genMatrix 3 2) 8 = 0xF0 ∧
    tabulate (genMatrix 3 3) 8 = 0xFF)

/-- Rule R65: a codeword's bits are the product of the message with G, and in closed form m[r] XOR the parity of m[r-1:0] AND c;
the bits at and above 2^r are 0. -/
def Obligations.EncodingFunctionBits : Prop :=
  ∀ r, 1 ≤ r → r ≤ 7 → ∀ (m : Data) (c : Nat),
    (c < 2 ^ r →
      (encf r m).getLsbD c = ((List.range (r + 1)).map fun j => m.getLsbD j && genMatrix r j c).foldl xor false ∧
      (encf r m).getLsbD c =
        (m.getLsbD r ^^ decide (popcount ((m &&& mask r) &&& BitVec.ofNat 128 c) % 2 = 1))) ∧
    (2 ^ r ≤ c → (encf r m).getLsbD c = false)

/-- Rule R66, ENC: the word, the errors in their order, the codeword with all else kept, and the corner cases. -/
def Obligations.EncFollowsRule : Prop :=
  (∀ (vd va : VNum) (s : State),
    let r := s.order.toNat
    (encode (.enc vd va)).toNat = va.val * 2 ^ 8 + vd.val * 16 + 0x5 ∧
    (¬ (1 ≤ r ∧ r ≤ 7) → exec (.enc vd va) s = .next { s with errcode := 5, err := true, cmdl := none }) ∧
    (1 ≤ r → r ≤ 7 → (s.vreg va).len = 0 →
      exec (.enc vd va) s = .next { s with errcode := 8, err := true, cmdl := none }) ∧
    (1 ≤ r → r ≤ 7 → (s.vreg va).len ≠ 0 → (s.vreg va).len ≠ r + 1 →
      exec (.enc vd va) s = .next { s with errcode := 2, err := true, cmdl := none }) ∧
    (1 ≤ r → r ≤ 7 → (s.vreg va).len = r + 1 →
      exec (.enc vd va) s =
        .next { s with v := s.v.set vd ⟨2 ^ r, encf r (s.vreg va).data⟩, errcode := 0, cmdl := none })) ∧
  ∀ r, 1 ≤ r → r ≤ 7 →
    encf r 0 = 0 ∧ encf r (1#128 <<< r) = mask (2 ^ r) ∧
    (∀ j < r, ∀ c < 2 ^ r, (encf r (1#128 <<< j)).getLsbD c = genMatrix r j c) ∧
    encf 1 0 = 0b00 ∧ encf 1 1 = 0b10 ∧ encf 1 2 = 0b11 ∧ encf 1 3 = 0b01

/-- The code is linear and closed under complement: the codeword of a sum is the sum of the codewords, and adding bit r to a
message complements its codeword (41_encode.md section 5, items 1 and 2). -/
def Obligations.CodeIsLinearAndComplementClosed : Prop :=
  ∀ r, 1 ≤ r → r ≤ 7 →
    (∀ m₁ m₂ : Data, encf r (m₁ ^^^ m₂) = encf r m₁ ^^^ encf r m₂) ∧
    ∀ m : Data, encf r (m ^^^ 1#128 <<< r) = ~~~(encf r m) &&& mask (2 ^ r)

/-- Rule R68: the bits of DECF, and DECF undoes ENCF on every message. -/
def Obligations.DecodingFunctionInverts : Prop :=
  ∀ r, 1 ≤ r → r ≤ 7 →
    (∀ y : Data, (decf r y).getLsbD r = y.getLsbD 0 ∧
      (∀ i < r, (decf r y).getLsbD i = (y.getLsbD 0 ^^ y.getLsbD (2 ^ i))) ∧
      ∀ k, r < k → (decf r y).getLsbD k = false) ∧
    ∀ m : Data, m.toNat < 2 ^ (r + 1) → decf r (encf r m) = m

/-- Rule R69, DEC: the word, the errors in their order, the message with all else kept, and the corner cases. -/
def Obligations.DecFollowsRule : Prop :=
  (∀ (vd va : VNum) (s : State),
    let r := s.order.toNat
    (encode (.dec vd va)).toNat = va.val * 2 ^ 8 + vd.val * 16 + 0x6 ∧
    (¬ (1 ≤ r ∧ r ≤ 7) → exec (.dec vd va) s = .next { s with errcode := 5, err := true, cmdl := none }) ∧
    (1 ≤ r → r ≤ 7 → (s.vreg va).len = 0 →
      exec (.dec vd va) s = .next { s with errcode := 8, err := true, cmdl := none }) ∧
    (1 ≤ r → r ≤ 7 → (s.vreg va).len ≠ 0 → (s.vreg va).len ≠ 2 ^ r →
      exec (.dec vd va) s = .next { s with errcode := 2, err := true, cmdl := none }) ∧
    (1 ≤ r → r ≤ 7 → (s.vreg va).len = 2 ^ r →
      exec (.dec vd va) s =
        .next { s with v := s.v.set vd ⟨r + 1, decf r (s.vreg va).data⟩, errcode := 0, cmdl := none })) ∧
  ∀ r, 1 ≤ r → r ≤ 7 →
    decf r 0 = 0 ∧ decf r (mask (2 ^ r)) = 1#128 <<< r ∧
    ∀ y : Data, (decf 1 y).toNat = (y.getLsbD 0 ^^ y.getLsbD 1).toNat + 2 * (y.getLsbD 0).toNat

/-- Rule R70: DEC succeeds on any input of the right length, its result depends on the positions 0, 1, 2, 4, ..., 2^(r-1) only,
and a flip at position 0 changes every recovered bit; with the rule's example. -/
def Obligations.DecIgnoresOtherPositions : Prop :=
  (∀ (vd va : VNum) (s : State), 1 ≤ s.order.toNat → s.order.toNat ≤ 7 → (s.vreg va).len = 2 ^ s.order.toNat →
    ∃ t, exec (.dec vd va) s = .next t ∧ t.errcode = 0 ∧ (t.vreg vd).data = decf s.order.toNat (s.vreg va).data) ∧
  (∀ r, 1 ≤ r → r ≤ 7 → ∀ y z : Data,
    (y.getLsbD 0 = z.getLsbD 0 → (∀ i < r, y.getLsbD (2 ^ i) = z.getLsbD (2 ^ i)) → decf r y = decf r z) ∧
    ∀ i ≤ r, (decf r (y ^^^ 1)).getLsbD i = !(decf r y).getLsbD i) ∧
  decf 3 0xFE = 7 ∧ encf 3 7 = 0x96 ∧ hammingDist 0x96 0xFE 8 = 3 ∧ hammingDist 0xFF 0xFE 8 = 1

/-- ENC and then DEC of the codeword gives the message back, and both commands succeed (41_encode.md section 5, item 3). -/
def Obligations.EncThenDecRestoresMessage : Prop :=
  ∀ (va vb vc : VNum) (s : State), 1 ≤ s.order.toNat → s.order.toNat ≤ 7 → RegWf (s.vreg va) →
    (s.vreg va).len = s.order.toNat + 1 →
    ∃ t u, exec (.enc vb va) s = .next t ∧ exec (.dec vc vb) t = .next u ∧
      u.errcode = 0 ∧ u.vreg vc = s.vreg va

/-- Every codeword has weight 0, 2^(r-1) or 2^r; two different codewords of order r differ in at least 2^(r-1) places, and two
differ in exactly that many (41_encode.md section 5, items 4 and 5). -/
def Obligations.WeightsAndMinimumDistance : Prop :=
  ∀ r, 1 ≤ r → r ≤ 7 →
    (∀ m : Data, popcount (encf r m) ∈ [0, 2 ^ (r - 1), 2 ^ r]) ∧
    (∀ m₁ m₂ : Data, m₁.toNat < 2 ^ (r + 1) → m₂.toNat < 2 ^ (r + 1) → m₁ ≠ m₂ →
      2 ^ (r - 1) ≤ popcount (encf r m₁ ^^^ encf r m₂)) ∧
    ∃ m₁ m₂ : Data, m₁.toNat < 2 ^ (r + 1) ∧ m₂.toNat < 2 ^ (r + 1) ∧ m₁ ≠ m₂ ∧
      popcount (encf r m₁ ^^^ encf r m₂) = 2 ^ (r - 1)

/-! ### Distance and searches (43_search.md, 44_fast_search.md) -/

/-- Rule R71: the Hamming distance counts the differing positions below n, and is a metric; complementing one operand gives
n minus it. -/
def Obligations.HammingDistanceLaws : Prop :=
  ∀ (n : Nat) (a b c : Data), n ≤ 128 →
    hammingDist a b n = (List.range n).countP (fun k => a.getLsbD k != b.getLsbD k) ∧
    hammingDist a b n ≤ n ∧
    hammingDist a b n = hammingDist b a n ∧
    (RegWf ⟨n, a⟩ → RegWf ⟨n, b⟩ →
      (hammingDist a b n = 0 ↔ a = b) ∧ hammingDist a b n = popcount (a ^^^ b)) ∧
    hammingDist a c n ≤ hammingDist a b n + hammingDist b c n ∧
    hammingDist (~~~a &&& mask n) b n = n - hammingDist a b n

/-- Rule R72, HDIST: the word, the errors in their order, and the two results with all else kept. -/
def Obligations.HdistFollowsRule : Prop :=
  ∀ (va vb : VNum) (s : State),
    (encode (.hdist va vb)).toNat = vb.val * 2 ^ 12 + va.val * 2 ^ 8 + 0x7 ∧
    ((s.vreg va).len = 0 ∨ (s.vreg vb).len = 0 →
      exec (.hdist va vb) s = .next { s with errcode := 8, err := true, cmdl := none }) ∧
    ((s.vreg va).len ≠ 0 → (s.vreg vb).len ≠ 0 → (s.vreg va).len ≠ (s.vreg vb).len →
      exec (.hdist va vb) s = .next { s with errcode := 2, err := true, cmdl := none }) ∧
    ((s.vreg va).len ≠ 0 → (s.vreg va).len = (s.vreg vb).len →
      ∃ x : Word, x.toNat = hammingDist (s.vreg va).data (s.vreg vb).data (s.vreg va).len ∧ x.toNat ≤ 128 ∧
        exec (.hdist va vb) s = .next { s with result0 := x, result1 := 0, errcode := 0, cmdl := none })

/-- Rule R73: the range and parity of the score, and the implied distance as the nearer of the codeword and its complement. -/
def Obligations.ScoreAndImpliedDistance : Prop :=
  ∀ r, 1 ≤ r → r ≤ 7 → ∀ c y : Data,
    let h := hammingDist c y (2 ^ r)
    let f := score r c y
    f = 2 ^ r - 2 * (h : Int) ∧ -(2 ^ r) ≤ f ∧ f ≤ 2 ^ r ∧ f % 2 = 2 ^ r % 2 ∧
    impliedDist r f = min (h : Int) (2 ^ r - h) ∧
    2 * impliedDist r f = 2 ^ r - |f| ∧
    (0 ≤ f → impliedDist r f = h) ∧
    (f < 0 → impliedDist r f = hammingDist (~~~c &&& mask (2 ^ r)) y (2 ^ r))

/-- Rule R74: the enumeration visits the messages 0, 1, ..., 2^(r+1) - 1, in this order and each once. -/
def Obligations.SearchEnumeratesInOrder : Prop :=
  ∀ r, 1 ≤ r → r ≤ 7 →
    (∀ k < 2 ^ (r + 1), (fun m => plusOne m (r + 1))^[k] 0 = BitVec.ofNat 128 k) ∧
    (fun m => plusOne m (r + 1))^[2 ^ (r + 1)] 0 = 0 ∧
    ∀ y : Data, searchBest r y =
      ((List.range (2 ^ (r + 1) - 1)).map fun k => candidate r y (BitVec.ofNat 128 (k + 1))).foldl keepFirst
        (candidate r y 0)

/-- The winner of the search is the lowest candidate whose score has the largest magnitude, it has bit r = 0, and its score is
never 0 (43_search.md section 6, items 1, 2 and 4). -/
def Obligations.SearchWinnerIsLowest : Prop :=
  ∀ r, 1 ≤ r → r ≤ 7 → ∀ y : Data, ∃ k < 2 ^ r,
    (searchBest r y).msg = BitVec.ofNat 128 k ∧
    (searchBest r y).score = score r (encf r (BitVec.ofNat 128 k)) y ∧
    (∀ j < 2 ^ (r + 1), |score r (encf r (BitVec.ofNat 128 j)) y| ≤ |(searchBest r y).score|) ∧
    (∀ j < k, |score r (encf r (BitVec.ofNat 128 j)) y| < |(searchBest r y).score|) ∧
    (searchBest r y).score ≠ 0

/-- What the search returns is a codeword, its message and its distance, and no codeword is nearer (43_search.md section 6,
item 3). -/
def Obligations.SearchReturnsNearest : Prop :=
  ∀ r, 1 ≤ r → r ≤ 7 → ∀ y : Data,
    (srchf r y).msg.toNat < 2 ^ (r + 1) ∧
    (srchf r y).codeword = encf r (srchf r y).msg ∧
    (srchf r y).dist = hammingDist (srchf r y).codeword y (2 ^ r) ∧
    ∀ m : Data, m.toNat < 2 ^ (r + 1) → (srchf r y).dist ≤ hammingDist (encf r m) y (2 ^ r)

/-- Fewer than 2^(r-2) flips of a codeword are corrected (43_search.md section 6, item 5). -/
def Obligations.SearchCorrectsErrors : Prop :=
  ∀ r, 2 ≤ r → r ≤ 7 → ∀ m e : Data, m.toNat < 2 ^ (r + 1) → RegWf ⟨2 ^ r, e⟩ → popcount e < 2 ^ (r - 2) →
    (srchf r (encf r m ^^^ e)).codeword = encf r m ∧ (srchf r (encf r m ^^^ e)).msg = m

/-- Rule R76, SRCH: the word, the errors in their order, and the codeword, message and distance with all else kept; a codeword is
returned with its message, at r = 1 the input is, and a tie goes to the lowest candidate. -/
def Obligations.SrchFollowsRule : Prop :=
  ∀ (vd va : VNum) (s : State),
    let r := s.order.toNat
    let y := (s.vreg va).data
    (encode (.srch vd va)).toNat = va.val * 2 ^ 8 + vd.val * 16 + 0x8 ∧
    (¬ (1 ≤ r ∧ r ≤ 7) → exec (.srch vd va) s = .next { s with errcode := 5, err := true, cmdl := none }) ∧
    (1 ≤ r → r ≤ 7 → (s.vreg va).len = 0 →
      exec (.srch vd va) s = .next { s with errcode := 8, err := true, cmdl := none }) ∧
    (1 ≤ r → r ≤ 7 → (s.vreg va).len ≠ 0 → (s.vreg va).len ≠ 2 ^ r →
      exec (.srch vd va) s = .next { s with errcode := 2, err := true, cmdl := none }) ∧
    (1 ≤ r → r ≤ 7 → (s.vreg va).len = 2 ^ r →
      ∃ x d : Word, x.toNat < 2 ^ (r + 1) ∧ x.toNat = (srchf r y).msg.toNat ∧ d.toNat ≤ 2 ^ (r - 1) ∧
        (d.toNat : Int) = (srchf r y).dist ∧ d.toNat = hammingDist (encf r (BitVec.ofNat 128 x.toNat)) y (2 ^ r) ∧
        (srchf r y).codeword = encf r (BitVec.ofNat 128 x.toNat) ∧
        (∀ m : Data, m.toNat < 2 ^ (r + 1) → y = encf r m → x.toNat = m.toNat ∧ d = 0) ∧
        (r = 1 → y.toNat < 4 → encf r (BitVec.ofNat 128 x.toNat) = y) ∧
        (decf r (encf r (BitVec.ofNat 128 x.toNat))).toNat = x.toNat ∧
        (∃ k < 2 ^ r, (x.toNat = k ∨ x.toNat = k + 2 ^ r) ∧ ∀ j < 2 ^ (r + 1),
          impliedDist r (score r (encf r (BitVec.ofNat 128 k)) y) ≤ impliedDist r (score r (encf r (BitVec.ofNat 128 j)) y) ∧
          (j < k →
            impliedDist r (score r (encf r (BitVec.ofNat 128 k)) y) <
              impliedDist r (score r (encf r (BitVec.ofNat 128 j)) y))) ∧
        exec (.srch vd va) s =
          .next { s with v := s.v.set vd ⟨2 ^ r, encf r (BitVec.ofNat 128 x.toNat)⟩, result0 := x, result1 := d,
                         errcode := 0, cmdl := none })

/-- Rules R78 and R79: the recursion of the sign matrix from H(1), by quadrants; its closed form, its symmetry, H·H = 2^r·I, and
its link to the code. -/
def Obligations.SignMatrix : Prop :=
  (signMatrix 1 0 0 = 1 ∧ signMatrix 1 0 1 = 1 ∧ signMatrix 1 1 0 = 1 ∧ signMatrix 1 1 1 = -1) ∧
  (∀ k, 2 ≤ k → k ≤ 7 → ∀ i < 2 ^ (k - 1), ∀ j < 2 ^ (k - 1),
    signMatrix k i j = signMatrix (k - 1) i j ∧
    signMatrix k i (j + 2 ^ (k - 1)) = signMatrix (k - 1) i j ∧
    signMatrix k (i + 2 ^ (k - 1)) j = signMatrix (k - 1) i j ∧
    signMatrix k (i + 2 ^ (k - 1)) (j + 2 ^ (k - 1)) = -signMatrix (k - 1) i j) ∧
  ∀ r, 1 ≤ r → r ≤ 7 → ∀ i < 2 ^ r, ∀ j < 2 ^ r,
    signMatrix r i j = (-1) ^ popcount (BitVec.ofNat 128 i &&& BitVec.ofNat 128 j) ∧
    signMatrix r i j = signMatrix r j i ∧
    (∑ k ∈ Finset.range (2 ^ r), signMatrix r i k * signMatrix r k j) = (if i = j then 2 ^ r else 0) ∧
    signMatrix r i j = (-1) ^ ((encf r (BitVec.ofNat 128 j)).getLsbD i).toNat

/-- Rule R80: the transform's values, their range and parity, that T[j] is the score of candidate j, and Parseval: the squares
sum to 2^(2r), so some value is at least 2^(r/2) in magnitude and not 0. -/
def Obligations.TransformIsScore : Prop :=
  ∀ r, 1 ≤ r → r ≤ 7 → ∀ y : Data,
    (∀ j < 2 ^ r,
      transform r y j =
        (∑ i ∈ Finset.range (2 ^ r), (if y.getLsbD i then (-1 : Int) else 1) * signMatrix r i j) ∧
      -(2 ^ r) ≤ transform r y j ∧ transform r y j ≤ 2 ^ r ∧ transform r y j % 2 = 2 ^ r % 2 ∧
      transform r y j = 2 ^ r - 2 * (hammingDist (encf r (BitVec.ofNat 128 j)) y (2 ^ r) : Int) ∧
      transform r y j = score r (encf r (BitVec.ofNat 128 j)) y) ∧
    (∑ j ∈ Finset.range (2 ^ r), transform r y j ^ 2) = 2 ^ (2 * r) ∧
    ∃ j < 2 ^ r, transform r y j ≠ 0 ∧ 2 ^ r ≤ transform r y j ^ 2

/-- Rule R81: the peak is the lowest index with the largest magnitude, it is not 0, and its sign picks the message. -/
def Obligations.PeakPicksMessage : Prop :=
  ∀ r, 1 ≤ r → r ≤ 7 → ∀ y : Data, ∃ b < 2 ^ r,
    (∀ j < 2 ^ r, |transform r y j| ≤ |transform r y b|) ∧
    (∀ j < b, |transform r y j| < |transform r y b|) ∧
    transform r y b ≠ 0 ∧
    (fsrchf r y).peak = transform r y b ∧
    (0 < transform r y b → (fsrchf r y).msg = b) ∧
    (transform r y b < 0 → (fsrchf r y).msg = b + 2 ^ r) ∧
    (fsrchf r y).codeword = encf r (BitVec.ofNat 128 (fsrchf r y).msg)

/-- Rule R82, FSRCH: the word, the errors in their order, and the codeword, message and signed peak with all else kept; a tie goes
to the lowest index; and what a codeword input gives. -/
def Obligations.FsrchFollowsRule : Prop :=
  ∀ (vd va : VNum) (s : State),
    let r := s.order.toNat
    let y := (s.vreg va).data
    (encode (.fsrch vd va)).toNat = va.val * 2 ^ 8 + vd.val * 16 + 0x9 ∧
    (¬ (1 ≤ r ∧ r ≤ 7) → exec (.fsrch vd va) s = .next { s with errcode := 5, err := true, cmdl := none }) ∧
    (1 ≤ r → r ≤ 7 → (s.vreg va).len = 0 →
      exec (.fsrch vd va) s = .next { s with errcode := 8, err := true, cmdl := none }) ∧
    (1 ≤ r → r ≤ 7 → (s.vreg va).len ≠ 0 → (s.vreg va).len ≠ 2 ^ r →
      exec (.fsrch vd va) s = .next { s with errcode := 2, err := true, cmdl := none }) ∧
    (1 ≤ r → r ≤ 7 → (s.vreg va).len = 2 ^ r →
      ∃ x p : Word, x.toNat < 2 ^ (r + 1) ∧ x.toNat = (fsrchf r y).msg ∧ p.toInt = (fsrchf r y).peak ∧ p ≠ 0 ∧
        (p.toInt < 0 ↔ 2 ^ r ≤ x.toNat) ∧
        p.toInt = transform r y (x.toNat % 2 ^ r) ∧
        (∀ j < 2 ^ r, |transform r y j| ≤ |transform r y (x.toNat % 2 ^ r)| ∧
          (j < x.toNat % 2 ^ r → |transform r y j| < |transform r y (x.toNat % 2 ^ r)|)) ∧
        (fsrchf r y).codeword = encf r (BitVec.ofNat 128 x.toNat) ∧
        (∀ m : Data, m.toNat < 2 ^ (r + 1) → y = encf r m →
          x.toNat = m.toNat ∧ p.toInt = (if m.getLsbD r then -(2 ^ r) else 2 ^ r) ∧
          ∀ j < 2 ^ r, j ≠ m.toNat % 2 ^ r → transform r y j = 0) ∧
        exec (.fsrch vd va) s =
          .next { s with v := s.v.set vd ⟨2 ^ r, encf r (BitVec.ofNat 128 x.toNat)⟩, result0 := x, result1 := p,
                         errcode := 0, cmdl := none })

/-- Rule R83: FSRCH writes the codeword and the message that SRCH writes, and its RESULT1 is the peak, with
SRCH.RESULT1 = (2^r - |FSRCH.RESULT1|)/2. -/
def Obligations.FastSearchAgreesWithSearch : Prop :=
  ∀ (vd va : VNum) (s : State), 1 ≤ s.order.toNat → s.order.toNat ≤ 7 → (s.vreg va).len = 2 ^ s.order.toNat →
    ∃ t u, exec (.srch vd va) s = .next t ∧ exec (.fsrch vd va) s = .next u ∧
      u.v = t.v ∧ u.result0 = t.result0 ∧
      u.result1.toInt = (fsrchf s.order.toNat (s.vreg va).data).peak ∧
      (t.result1.toNat : Int) = (2 ^ s.order.toNat - |u.result1.toInt|) / 2

/-! ### Errors and frames (60_exceptions.md) -/

/-- Rule R87: a command reports the first error that applies, in the order of the rule's table. -/
def Obligations.ErrorPriority : Prop :=
  ∀ (vd va vb : VNum) (n : Nat) (s : State),
    let r := s.order.toNat
    let la := (s.vreg va).len
    let lb := (s.vreg vb).len
    (∀ w e, decode w = .error e → ∃ t, runCommand w s = .next t ∧ t.errcode = 6) ∧
    (∃ t, exec (.load vd n) s = .next t ∧
      t.errcode = if 128 < n then 7 else if n < natlen s.hdataValue then 3 else 0) ∧
    (∀ i ∈ [Instr.vxor vd va vb, .vand vd va vb, .hdist va vb], ∃ t, exec i s = .next t ∧
      t.errcode = if la = 0 then 8 else if lb = 0 then 8 else if la ≠ lb then 2 else 0) ∧
    (∃ t, exec (.vnot vd va) s = .next t ∧ t.errcode = if la = 0 then 8 else 0) ∧
    (∃ t, exec (.enc vd va) s = .next t ∧
      t.errcode = if r = 0 ∨ 7 < r then 5 else if la = 0 then 8 else if la ≠ r + 1 then 2 else 0) ∧
    (∀ i ∈ [Instr.dec vd va, .srch vd va, .fsrch vd va], ∃ t, exec i s = .next t ∧
      t.errcode = if r = 0 ∨ 7 < r then 5 else if la = 0 then 8 else if la ≠ 2 ^ r then 2 else 0)

/-- A failing command has no effect but ERRCODE, ERR and BUSY; a succeeding one leaves ERR as it was (60_exceptions.md sections
1 and 3). -/
def Obligations.FailureHasNoOtherEffect : Prop :=
  ∀ (i : Instr) (s t : State), exec i s = .next t →
    (t.errcode ≠ 0 → t = { s with errcode := t.errcode, err := true, cmdl := none }) ∧
    (t.errcode = 0 → t.err = s.err)

/-- A command reads its inputs only. No command reads a flag: with other values of ERR, OVR and ERRCODE a command answers the same
results and the same error; ORDER is read by the code commands only: with another order the other commands do the same. And two
states that agree on a command's inputs, HDATA for LOAD, the source registers for the others, ORDER too for the code commands, give
the same error and, on success, the same results, whatever else they hold (10_state.md sections 1 and 5, 41_encode.md section 1). -/
def Obligations.CommandsReadOnlyTheirInputs : Prop :=
  (∀ (i : Instr) (s t : State) (a b : Bool) (c : BitVec 8), exec i s = .next t →
    exec i { s with err := a, ovr := b, errcode := c } =
      .next { t with err := if t.errcode = 0 then a else true, ovr := b }) ∧
  (∀ (vd va vb : VNum) (n : Nat) (r : BitVec 4) (s : State),
    ∀ i ∈ [Instr.load vd n, .vxor vd va vb, .vand vd va vb, .vnot vd va, .hdist va vb],
      ∃ t, exec i s = .next t ∧ exec i { s with order := r } = .next { t with order := r }) ∧
  ∀ (vd va vb : VNum) (n : Nat) (s u : State),
    (s.hdata = u.hdata → ∃ t w, exec (.load vd n) s = .next t ∧ exec (.load vd n) u = .next w ∧
      t.errcode = w.errcode ∧ (t.errcode = 0 → t.vreg vd = w.vreg vd)) ∧
    (s.vreg va = u.vreg va → s.vreg vb = u.vreg vb → ∀ i ∈ [Instr.vxor vd va vb, .vand vd va vb],
      ∃ t w, exec i s = .next t ∧ exec i u = .next w ∧
        t.errcode = w.errcode ∧ (t.errcode = 0 → t.vreg vd = w.vreg vd)) ∧
    (s.vreg va = u.vreg va → ∃ t w, exec (.vnot vd va) s = .next t ∧ exec (.vnot vd va) u = .next w ∧
      t.errcode = w.errcode ∧ (t.errcode = 0 → t.vreg vd = w.vreg vd)) ∧
    (s.vreg va = u.vreg va → s.order = u.order → ∀ i ∈ [Instr.enc vd va, .dec vd va],
      ∃ t w, exec i s = .next t ∧ exec i u = .next w ∧
        t.errcode = w.errcode ∧ (t.errcode = 0 → t.vreg vd = w.vreg vd)) ∧
    (s.vreg va = u.vreg va → s.order = u.order → ∀ i ∈ [Instr.srch vd va, .fsrch vd va],
      ∃ t w, exec i s = .next t ∧ exec i u = .next w ∧ t.errcode = w.errcode ∧
        (t.errcode = 0 → t.vreg vd = w.vreg vd ∧ t.result0 = w.result0 ∧ t.result1 = w.result1)) ∧
    (s.vreg va = u.vreg va → s.vreg vb = u.vreg vb →
      ∃ t w, exec (.hdist va vb) s = .next t ∧ exec (.hdist va vb) u = .next w ∧ t.errcode = w.errcode ∧
        (t.errcode = 0 → t.result0 = w.result0 ∧ t.result1 = w.result1))

/-- The frame of every command: LOAD, VXOR, VAND, VNOT, ENC and DEC change no register but V[VD], ERRCODE, ERR and BUSY; SRCH and
FSRCH also RESULT0 and RESULT1; HDIST these two and no vector register. -/
def Obligations.CommandFrames : Prop :=
  ∀ (vd va vb : VNum) (n : Nat) (s t : State),
    (∀ i ∈ [Instr.load vd n, .vxor vd va vb, .vand vd va vb, .vnot vd va, .enc vd va, .dec vd va], exec i s = .next t →
      t = { s with v := t.v, errcode := t.errcode, err := t.err, cmdl := none } ∧ ∀ k, k ≠ vd → t.vreg k = s.vreg k) ∧
    (∀ i ∈ [Instr.srch vd va, .fsrch vd va], exec i s = .next t →
      t = { s with v := t.v, result0 := t.result0, result1 := t.result1, errcode := t.errcode, err := t.err,
                   cmdl := none } ∧ ∀ k, k ≠ vd → t.vreg k = s.vreg k) ∧
    (exec (.hdist va vb) s = .next t →
      t = { s with result0 := t.result0, result1 := t.result1, errcode := t.errcode, err := t.err, cmdl := none })

/-! ### The register port (10_state.md, 20_memory.md, 70_reset_and_hazards.md) -/

/-- Rules R20 and R21: what ID and PARAM read as, and that writes to them are ignored. -/
def Obligations.IdAndParamAreConstant : Prop :=
  ∀ (s : State) (x : Word),
    portRead 0x000 4 s = 0x524D4331 ∧ portRead 0x004 4 s = 0x00800807 ∧
    (portRead 0x004 4 s).toNat = 7 + 8 * 2 ^ 8 + 128 * 2 ^ 16 ∧
    portWrite 0x000 4 x s = s ∧ portWrite 0x004 4 x s = s

/-- Rules R22 and R23: a write of ORDER stores bits [3:0] as written and changes nothing else, is ignored with OVR set while
BUSY = 1, and is read back; an invalid order makes the code commands raise InvalidOrder; DIMS follows ORDER and ignores
writes. -/
def Obligations.OrderAndDimsRegisters : Prop :=
  ∀ (s : State) (x : Word),
    (s.busy = false → portWrite 0x008 4 x s = { s with order := x.extractLsb' 0 4 } ∧
      (portRead 0x008 4 (portWrite 0x008 4 x s)).toNat = x.toNat % 16) ∧
    (s.busy = true → portWrite 0x008 4 x s = { s with ovr := true }) ∧
    portRead 0x008 4 s = 0#28 ++ s.order ∧
    (¬ (1 ≤ s.order.toNat ∧ s.order.toNat ≤ 7) → ∀ vd va : VNum,
      ∀ i ∈ [Instr.enc vd va, .dec vd va, .srch vd va, .fsrch vd va],
        exec i s = .next { s with errcode := 5, err := true, cmdl := none }) ∧
    (portRead 0x00C 4 s).toNat =
      (if 1 ≤ s.order.toNat ∧ s.order.toNat ≤ 7 then 2 ^ s.order.toNat * 2 ^ 16 + (s.order.toNat + 1) else 0) ∧
    portWrite 0x00C 4 x s = s

/-- Rule R24: a CMD write while BUSY = 0 latches the word and sets BUSY, while BUSY = 1 it is ignored and sets OVR, and CMD
reads 0. When the command will complete is left free. -/
def Obligations.CmdWriteIssues : Prop :=
  ∀ (s : State) (x : Word),
    (s.busy = false → ∃ n m, portWrite 0x010 4 x s = { s with cmdl := some x, wait := n, issues := m } ∧
      (portWrite 0x010 4 x s).busy = true) ∧
    (s.busy = true → portWrite 0x010 4 x s = { s with ovr := true }) ∧
    portRead 0x010 4 s = 0

/-- The fields a read of STATUS shows, and what a write of STATUS clears, whether BUSY is 0 or 1 (10_state.md section 3). -/
def Obligations.StatusFieldsAndClear : Prop :=
  ∀ (s : State) (x : Word),
    (∀ k < 32, (portRead 0x014 4 s).getLsbD k =
      if k = 0 then s.cmdl.isSome else if k = 1 then s.err else if k = 2 then s.ovr
      else if 8 ≤ k ∧ k < 16 then s.errcode.getLsbD (k - 8) else false) ∧
    portWrite 0x014 4 x s = { s with err := s.err && !x.getLsbD 1, ovr := s.ovr && !x.getLsbD 2 }

/-- Rule R26: only a successful HDIST, SRCH or FSRCH writes RESULT0 and RESULT1, with the values of the rule's table; they are
read as they are and writes are ignored. -/
def Obligations.ResultRegisters : Prop :=
  (∀ (i : Instr) (s t : State), exec i s = .next t →
    (t.errcode ≠ 0 → t.result0 = s.result0 ∧ t.result1 = s.result1) ∧
    match i with
    | .hdist va vb => t.errcode = 0 →
        t.result0.toNat = hammingDist (s.vreg va).data (s.vreg vb).data (s.vreg va).len ∧ t.result1 = 0
    | .srch vd va => t.errcode = 0 →
        t.result0.toNat < 2 ^ (s.order.toNat + 1) ∧
        (t.vreg vd).data = encf s.order.toNat (BitVec.ofNat 128 t.result0.toNat) ∧
        t.result1.toNat = hammingDist (t.vreg vd).data (s.vreg va).data (2 ^ s.order.toNat)
    | .fsrch vd va => t.errcode = 0 →
        t.result0.toNat < 2 ^ (s.order.toNat + 1) ∧
        (t.vreg vd).data = encf s.order.toNat (BitVec.ofNat 128 t.result0.toNat) ∧
        t.result1.toInt = (fsrchf s.order.toNat (s.vreg va).data).peak ∧
        -(2 ^ s.order.toNat) ≤ t.result1.toInt ∧ t.result1.toInt ≤ 2 ^ s.order.toNat
    | _ => t.result0 = s.result0 ∧ t.result1 = s.result1) ∧
  ∀ (s : State) (x : Word),
    portRead 0x018 4 s = s.result0 ∧ portRead 0x01C 4 s = s.result1 ∧
    portWrite 0x018 4 x s = s ∧ portWrite 0x01C 4 x s = s

/-- Rule R27: HDATA0 to HDATA3 hold the 128-bit HDATA word by word; a write is read back and leaves the other words, is ignored
with OVR set while BUSY = 1; only LOAD reads HDATA and no command writes it. -/
def Obligations.HdataRegisters : Prop :=
  (∀ (s : State) (x : Word) (j : Fin 4),
    portRead (0x020 + 4 * j.val) 4 s = s.hdata[j] ∧
    s.hdataValue.extractLsb' (32 * j.val) 32 = s.hdata[j] ∧
    (s.busy = false → portWrite (0x020 + 4 * j.val) 4 x s = { s with hdata := s.hdata.set j x } ∧
      ∀ i : Fin 4, portRead (0x020 + 4 * i.val) 4 (portWrite (0x020 + 4 * j.val) 4 x s) =
        if i = j then x else s.hdata[i]) ∧
    (s.busy = true → portWrite (0x020 + 4 * j.val) 4 x s = { s with ovr := true })) ∧
  (∀ j : Fin 4, State.reset.hdata[j] = 0) ∧
  ∀ (i : Instr) (s t : State) (h : Vector Word 4), exec i s = .next t → t.hdata = s.hdata ∧
    ((∀ vd n, i ≠ .load vd n) → exec i { s with hdata := h } = .next { t with hdata := h })

/-- Rules R28 and R34: the words of a VREG window, which ignore writes; no host write changes a vector register; and the byte and
bit at which the little-endian bus finds bit k of a vector. -/
def Obligations.VectorWindows : Prop :=
  ∀ (s : State) (k : VNum) (x : Word),
    (∀ j : Fin 4, portRead (0x100 + 0x20 * k.val + 4 * j.val) 4 s = (s.vreg k).data.extractLsb' (32 * j.val) 32) ∧
    ((s.vreg k).len ≤ 128 → (portRead (0x100 + 0x20 * k.val + 0x10) 4 s).toNat = (s.vreg k).len) ∧
    portRead (0x100 + 0x20 * k.val + 0x14) 4 s = 0 ∧ portRead (0x100 + 0x20 * k.val + 0x18) 4 s = 0 ∧
    portRead (0x100 + 0x20 * k.val + 0x1C) 4 s = 0 ∧
    (∀ j < 8, portWrite (0x100 + 0x20 * k.val + 4 * j) 4 x s = s) ∧
    (∀ off width, (portWrite off width x s).v = s.v) ∧
    (∀ off < 512, ∀ b < 8, (windowByte s off).getLsbD b = (portRead (off - off % 4) 4 s).getLsbD (8 * (off % 4) + b)) ∧
    ∀ b < 128, (windowByte s (0x100 + 0x20 * k.val + 4 * (b / 32) + b % 32 / 8)).getLsbD (b % 8) =
      (s.vreg k).data.getLsbD b

/-- Rules R35 and R37: an access of another width or alignment reads 0, writes nothing and sets no flag; so do offsets without a
register and the reserved fields of the registers that have some; and writes to the read-only registers are ignored. -/
def Obligations.UnservedReservedReadOnly : Prop :=
  (∀ (s : State) (off width : Nat) (x : Word), width ≠ 4 ∨ off % 4 ≠ 0 →
    portRead off width s = 0 ∧ portWrite off width x s = s) ∧
  ∀ (s : State) (off : Nat) (x : Word), off < 512 → off % 4 = 0 →
    (0x030 ≤ off ∧ off < 0x100 ∨ 0x100 ≤ off ∧ 0x14 ≤ off % 0x20 → portRead off 4 s = 0 ∧ portWrite off 4 x s = s) ∧
    (off ∈ [0x000, 0x004, 0x00C, 0x018, 0x01C] ∨ 0x100 ≤ off → portWrite off 4 x s = s) ∧
    (portRead 0x008 4 s).toNat < 2 ^ 4 ∧
    (∀ k, 8 ≤ k → k < 16 → (portRead 0x00C 4 s).getLsbD k = false) ∧
    (∀ k, 3 ≤ k ∧ k < 8 ∨ 16 ≤ k → (portRead 0x014 4 s).getLsbD k = false) ∧
    (0x100 ≤ off → off % 0x20 = 0x10 → (portRead off 4 s).toNat < 2 ^ 8) ∧
    portWrite 0x008 4 x s = portWrite 0x008 4 (x &&& 0xF) s ∧ portWrite 0x014 4 x s = portWrite 0x014 4 (x &&& 0x6) s

/-- No read has a side effect on the block: the step of a read changes only the events still to come, the accesses served and the
count to the completion; and a write of ORDER, HDATA or STATUS is idempotent (20_memory.md section 3). -/
def Obligations.ReadsHaveNoSideEffect : Prop :=
  (∀ (s t : State) (addr width : Nat) (rest : List PortEvent), s.cmdl = none ∨ s.wait ≠ 0 →
    s.inputs = .read addr width :: rest → step s = .next t →
      t = { s with inputs := rest, accesses := t.accesses, wait := t.wait }) ∧
  ∀ (s : State) (off : Nat) (x : Word), off ≠ 0x010 →
    portWrite off 4 x (portWrite off 4 x s) = portWrite off 4 x s

/-- What the block answers: a read at BASE + off is answered with the register's value, whether a command is in flight or not; a
write there has the register's effect; each is put before the accesses served so far (notes/assumptions/18.md); BASE is a multiple
of 512 (20_memory.md sections 1 and 4). Two clauses are the model's reading: an access outside the window does nothing to the block
(notes/assumptions/5.md), and an access of any width, also one across an edge of the window, is judged by its lowest address
(notes/assumptions/6.md). -/
def Obligations.WindowAtBase : Prop :=
  Config.base % 512 = 0 ∧
  (∀ (s : State) (off width : Nat), off < 512 → s.inReset = false →
    serveEvent (.read (Config.base + off) width) s =
      .next { s with accesses := .read off width (portRead off width s) :: s.accesses }) ∧
  (∀ (s : State) (off width : Nat) (x : Word), off < 512 → s.inReset = false →
    serveEvent (.write (Config.base + off) width x) s =
      .next { portWrite off width x s with accesses := .write off width x :: s.accesses }) ∧
  ∀ (s : State) (addr width : Nat) (x : Word), addr < Config.base ∨ Config.base + 512 ≤ addr →
    serveEvent (.read addr width) s = .next s ∧ serveEvent (.write addr width x) s = .next s

/-- Rule R103: while BUSY = 1 a write to CMD, ORDER or HDATA is ignored, not queued, and sets OVR; a write to STATUS is accepted;
a write anywhere else changes nothing, whatever BUSY is. -/
def Obligations.BusyWritesAreIgnored : Prop :=
  ∀ (s : State) (off : Nat) (x : Word), off < 512 → off % 4 = 0 →
    (s.busy = true → off ∈ [0x008, 0x010, 0x020, 0x024, 0x028, 0x02C] → portWrite off 4 x s = { s with ovr := true }) ∧
    (off = 0x014 → portWrite off 4 x s = { s with err := s.err && !x.getLsbD 1, ovr := s.ovr && !x.getLsbD 2 }) ∧
    (off ∉ [0x008, 0x010, 0x014, 0x020, 0x024, 0x028, 0x02C] → portWrite off 4 x s = s)

/-- Rule R104: while a command is in flight, a step that does not complete it and is no reset leaves every register as it was
before the command: the vector registers, RESULT0, RESULT1, ERRCODE, ORDER (and with it DIMS) and HDATA; and CMDL too. -/
def Obligations.InFlightStateIsFixed : Prop :=
  ∀ (s t : State) (w : Word), s.cmdl = some w → s.wait ≠ 0 → s.inputs.head? ≠ some .resetAssert → step s = .next t →
    t.cmdl = some w ∧ t.v = s.v ∧ t.result0 = s.result0 ∧ t.result1 = s.result1 ∧ t.errcode = s.errcode ∧
    t.order = s.order ∧ t.hdata = s.hdata ∧
    (∀ off ∈ [0x000, 0x004, 0x008, 0x00C, 0x018, 0x01C, 0x020, 0x024, 0x028, 0x02C], portRead off 4 t = portRead off 4 s) ∧
    (∀ off, 0x100 ≤ off → off < 512 → portRead off 4 t = portRead off 4 s) ∧
    ∀ k, 8 ≤ k → k < 16 → (portRead 0x014 4 t).getLsbD k = (portRead 0x014 4 s).getLsbD k

/-- A command in flight completes after finitely many steps, with the results that its registers at the start give, whatever the
host does meanwhile except reset (20_memory.md section 6, 70_reset_and_hazards.md section 3). That the steps are `wait + 1` rests on
the model's counting of LAT in steps (notes/assumptions/1.md) and on a due completion coming before the next event
(notes/assumptions/13.md). -/
def Obligations.CommandCompletesWithItsInputs : Prop :=
  ∀ (s : State) (w : Word) (i : Instr), s.cmdl = some w → decode w = .ok i → s.inReset = false → NoReset s →
    ∃ t u, Host.Core.run Sys2Proof.core (s.wait + 1) s = .next t ∧ exec i s = .next u ∧
      t.cmdl = none ∧ t.v = u.v ∧ t.result0 = u.result0 ∧ t.result1 = u.result1 ∧ t.errcode = u.errcode ∧
      t.order = s.order ∧ t.hdata = s.hdata

/-- A host's WAIT is over only when no command is in flight: a STATUS read that shows BUSY = 0 means that every issued command has
completed, and a WAIT stays until then (20_memory.md section 6, 30_encoding.md section 6). A host program has ended when its last
access is made and the last STATUS read it made returned BUSY = 0 after its last CMD write, and then no command is in flight
(70_reset_and_hazards.md section 5). That a WAIT is one event of the port is the model's choice (notes/assumptions/11.md), and so is
the list of accesses served that the end of a program is read from (notes/assumptions/18.md). -/
def Obligations.WaitEndsWhenIdle : Prop :=
  (∀ s : State, s.inReset = false →
    ((portRead 0x014 4 s).getLsbD 0 = false ↔ s.cmdl = none) ∧
    (s.cmdl = none → serveEvent .pollIdle s =
      .next { s with accesses := .read 0x014 4 (portRead 0x014 4 s) :: s.accesses }) ∧
    (s.cmdl ≠ none → serveEvent .pollIdle s =
      .next { s with accesses := .read 0x014 4 (portRead 0x014 4 s) :: s.accesses, inputs := .pollIdle :: s.inputs })) ∧
  ∀ s : State,
    (s.ended = true ↔ s.inputs = [] ∧ ∃ later answer earlier,
      s.accesses = later ++ .read 0x014 4 answer :: earlier ∧ answer.getLsbD 0 = false ∧
      (∀ x, Access.read 0x014 4 x ∉ later) ∧ ∀ x, Access.write 0x010 4 x ∉ later) ∧
    (s.Inv → s.ended = true → s.cmdl = none)

/-- Rule R32: every piece of state after reset, with what ID, PARAM, DIMS and STATUS then read as. -/
def Obligations.ResetValues : Prop :=
  (∀ k : VNum, State.reset.vreg k = ⟨0, 0⟩) ∧ State.reset.order = 0 ∧ portRead 0x00C 4 State.reset = 0 ∧
  State.reset.busy = false ∧ State.reset.err = false ∧ State.reset.ovr = false ∧ State.reset.errcode = 0 ∧
  State.reset.result0 = 0 ∧ State.reset.result1 = 0 ∧ (∀ j : Fin 4, State.reset.hdata[j] = 0) ∧
  State.reset.cmdl = none ∧ portRead 0x000 4 State.reset = 0x524D4331 ∧ portRead 0x004 4 State.reset = 0x00800807 ∧
  portRead 0x014 4 State.reset = 0

/-- A reset abandons a command in flight, which writes nothing, and leaves the state of rule R32; an access or a STATUS poll while
reset is asserted is refused; and releasing reset changes nothing else (70_reset_and_hazards.md section 1). Two clauses are the
model's choice: the platform's events, the accesses served and the count of issues stay (notes/assumptions/4.md), and assertion and
release are two events (notes/assumptions/13.md). -/
def Obligations.ResetAbandonsCommand : Prop :=
  (∀ s : State, ∃ t, serveEvent .resetAssert s = .next t ∧ t.inReset = true ∧
    t = { State.reset with
            inReset := true, inputs := s.inputs, accesses := s.accesses, issues := s.issues }) ∧
  (∀ s : State, serveEvent .resetRelease s = .next { s with inReset := false }) ∧
  ∀ (s : State) (off width : Nat) (x : Word), s.inReset = true → off < 512 →
    serveEvent (.read (Config.base + off) width) s = .refused .accessDuringReset ∧
    serveEvent (.write (Config.base + off) width x) s = .refused .accessDuringReset ∧
    serveEvent .pollIdle s = .refused .accessDuringReset

/-! ### Invariants -/

/-- Rule R15: every command keeps the bits of every vector register at and above its length 0, and its length at most VMAX; and no
command empties a register. -/
def Obligations.CommandsKeepVectorsWellFormed : Prop :=
  ∀ (i : Instr) (s t : State), exec i s = .next t →
    (VregsWf s → VregsWf t) ∧ ∀ k, (t.vreg k).len = 0 → (s.vreg k).len = 0

/-- The invariant holds at reset. -/
def Obligations.InvariantAtReset : Prop := State.reset.Inv

/-- Every step keeps the invariant: vector registers well formed, ERRCODE a code that can be raised, the results in range, reset
held while it is asserted, and no command in flight once a STATUS read has returned BUSY = 0 with no later CMD write. -/
def Obligations.StepKeepsInvariant : Prop :=
  ∀ s t : State, s.Inv → step s = .next t → t.Inv
end

