-- ==== Sys2Proof/Laws/Bits.lean ====
section
/-! SUPPORT. The bits of the primitives of Machine/Bits.lean. -/

namespace Sys2Proof.Machine

@[simp] theorem tabulate_zero (f : Nat → Bool) : tabulate f 0 = 0 := rfl

/-- Bit k of a tabulated vector. -/
@[simp] theorem getLsbD_tabulate (f : Nat → Bool) (n k : Nat) :
    (tabulate f n).getLsbD k = (decide (k < n) && decide (k < 128) && f k) := by
  by_cases hk : k < 128
  · induction n with
    | zero => simp
    | succ n ih =>
      have hbit : (1#128 <<< n).getLsbD k = decide (k = n) := by
        rw [BitVec.getLsbD_shiftLeft, BitVec.getLsbD_one]
        by_cases hkn : k = n
        · simp [hkn, hkn ▸ hk]
        · simp [hkn]
          omega
      rw [tabulate]
      by_cases hkn : k = n
      · subst hkn
        cases hf : f k
        · simp only [Bool.false_eq_true, if_false, ih]; simp
        · simp only [if_true, BitVec.getLsbD_or, hbit]; simp [hk]
      · have hlt : (k < n + 1) ↔ (k < n) := by omega
        cases f n
        · simp only [Bool.false_eq_true, if_false, ih, hlt]
        · simp only [if_true, BitVec.getLsbD_or, hbit, ih, hlt]; simp [hkn]
  · simp [BitVec.getLsbD_of_ge _ _ (Nat.le_of_not_lt hk), hk]

@[simp] theorem getElem_tabulate (f : Nat → Bool) (n k : Nat) (hk : k < 128) :
    (tabulate f n)[k] = (decide (k < n) && f k) := by
  rw [← BitVec.getLsbD_eq_getElem, getLsbD_tabulate]
  simp [hk]

/-- Two vectors with the same bits are equal. -/
theorem data_ext {a b : Data} (h : ∀ k < 128, a.getLsbD k = b.getLsbD k) : a = b :=
  BitVec.eq_of_getLsbD_eq fun k hk => h k hk

/-- Two tabulated vectors of one length are equal when their functions agree below it. -/
theorem tabulate_congr {f g : Nat → Bool} {n : Nat} (h : ∀ k < n, f k = g k) : tabulate f n = tabulate g n := by
  refine data_ext fun k hk => ?_
  by_cases hn : k < n
  · simp [hk, h k hn]
  · simp [hk, hn]

/-- Bit k of `mask n`. -/
@[simp] theorem getLsbD_mask (n k : Nat) : (mask n).getLsbD k = (decide (k < n) && decide (k < 128)) := by
  simp [mask]

@[simp] theorem getElem_mask (n k : Nat) (hk : k < 128) : (mask n)[k] = decide (k < n) := by
  simp [mask]

/-- Masking with `mask n` changes nothing exactly when the bits at and above n are 0. -/
theorem and_mask_eq_iff (d : Data) (n : Nat) : d &&& mask n = d ↔ ∀ k < 128, n ≤ k → d.getLsbD k = false := by
  constructor
  · intro h k hk hn
    rw [← h]
    simp [Nat.not_lt.mpr hn]
  · intro h
    refine data_ext fun k hk => ?_
    by_cases hn : k < n
    · simp [hn, hk]
    · simp [hn, h k hk (Nat.le_of_not_lt hn)]

@[simp] theorem popcountBelow_zero (v : Data) : popcountBelow v 0 = 0 := rfl

theorem popcountBelow_succ (v : Data) (n : Nat) :
    popcountBelow v (n + 1) = popcountBelow v n + (v.getLsbD n).toNat := rfl

theorem popcountBelow_le (v : Data) (n : Nat) : popcountBelow v n ≤ n := by
  induction n with
  | zero => simp
  | succ n ih =>
    rw [popcountBelow_succ]
    have := Bool.toNat_le (v.getLsbD n)
    omega

/-- At most 128 bits are 1. -/
theorem popcount_le (v : Data) : popcount v ≤ 128 := popcountBelow_le v 128

/-- The count depends on the bits below n only. -/
theorem popcountBelow_congr {a b : Data} {n : Nat} (h : ∀ k < n, a.getLsbD k = b.getLsbD k) :
    popcountBelow a n = popcountBelow b n := by
  induction n with
  | zero => rfl
  | succ n ih =>
    rw [popcountBelow_succ, popcountBelow_succ, ih fun k hk => h k (by omega), h n (by omega)]

/-- The count as a sum over the positions. -/
theorem popcountBelow_eq_sum (v : Data) (n : Nat) :
    popcountBelow v n = ∑ k ∈ Finset.range n, (v.getLsbD k).toNat := by
  induction n with
  | zero => simp
  | succ n ih => rw [popcountBelow_succ, Finset.sum_range_succ, ih]

/-- Above a length at which all bits are 0 nothing more is counted. -/
theorem popcountBelow_eq_of_zero_above {v : Data} {n m : Nat} (hnm : n ≤ m)
    (h : ∀ k, n ≤ k → k < m → v.getLsbD k = false) : popcountBelow v m = popcountBelow v n := by
  induction m with
  | zero => simp [Nat.le_zero.mp hnm]
  | succ m ih =>
    by_cases he : n = m + 1
    · rw [he]
    · rw [popcountBelow_succ, ih (by omega) fun k hk hk' => h k hk (by omega), h m (by omega) (by omega)]
      simp

/-- The count of a vector masked to n bits. -/
theorem popcount_and_mask (v : Data) {n : Nat} (h : n ≤ 128) : popcount (v &&& mask n) = popcountBelow v n := by
  rw [popcount, popcountBelow_eq_of_zero_above h fun k hk _ => by simp [Nat.not_lt.mpr hk]]
  exact popcountBelow_congr fun k hk => by simp [hk, Nat.lt_of_lt_of_le hk h]

/-- No bit is 1 exactly when the count is 0. -/
theorem popcountBelow_eq_zero_iff (v : Data) (n : Nat) :
    popcountBelow v n = 0 ↔ ∀ k < n, v.getLsbD k = false := by
  induction n with
  | zero => simp
  | succ n ih =>
    rw [popcountBelow_succ, Nat.add_eq_zero_iff, ih, Nat.forall_lt_succ_right]
    simp

@[simp] theorem xorBelow_zero (f : Nat → Bool) : xorBelow f 0 = false := rfl

theorem xorBelow_succ (f : Nat → Bool) (n : Nat) : xorBelow f (n + 1) = (xorBelow f n ^^ f n) := rfl

theorem xorBelow_congr {f g : Nat → Bool} {n : Nat} (h : ∀ k < n, f k = g k) : xorBelow f n = xorBelow g n := by
  induction n with
  | zero => rfl
  | succ n ih => rw [xorBelow_succ, xorBelow_succ, ih fun k hk => h k (by omega), h n (by omega)]

/-- The exclusive or of componentwise exclusive ors. -/
theorem xorBelow_xor (f g : Nat → Bool) (n : Nat) :
    xorBelow (fun k => f k ^^ g k) n = (xorBelow f n ^^ xorBelow g n) := by
  induction n with
  | zero => rfl
  | succ n ih =>
    rw [xorBelow_succ, xorBelow_succ, xorBelow_succ, ih]
    cases xorBelow f n <;> cases xorBelow g n <;> cases f n <;> cases g n <;> rfl

/-- With all terms false the exclusive or is false. -/
theorem xorBelow_false {f : Nat → Bool} {n : Nat} (h : ∀ k < n, f k = false) : xorBelow f n = false := by
  rw [xorBelow_congr h]
  induction n with
  | zero => rfl
  | succ n ih => rw [xorBelow_succ, ih fun k hk => h k (by omega)]; rfl

/-- With one term possibly true the exclusive or is that term. -/
theorem xorBelow_single {f : Nat → Bool} {n j : Nat} (hj : j < n) (h : ∀ k < n, k ≠ j → f k = false) :
    xorBelow f n = f j := by
  induction n with
  | zero => omega
  | succ n ih =>
    rw [xorBelow_succ]
    by_cases he : j = n
    · subst he
      rw [xorBelow_false fun k hk => h k (by omega) (by omega), Bool.false_xor]
    · rw [ih (by omega) fun k hk hne => h k (by omega) hne, h n (by omega) (by omega), Bool.xor_false]

/-- The natural length is at least 1. -/
theorem natlen_pos (k : Data) : 1 ≤ natlen k := by
  unfold natlen
  split <;> omega

/-- A value fits n bits exactly when its natural length is at most n, for n ≥ 1. -/
theorem natlen_le_iff (k : Data) (n : Nat) : natlen k ≤ n ↔ 1 ≤ n ∧ k.toNat < 2 ^ n := by
  unfold natlen
  split
  · next h => subst h; simp
  · next h =>
    have hk : k.toNat ≠ 0 := fun e => h (BitVec.eq_of_toNat_eq (by simpa using e))
    have := Nat.log2_lt (n := k.toNat) (k := n) hk
    constructor
    · intro hn
      exact ⟨by omega, this.mp (by omega)⟩
    · rintro ⟨_, hlt⟩
      have := this.mpr hlt
      omega

/-- The bits of a value at and above its natural length are 0. -/
theorem getLsbD_of_natlen_le {k : Data} {n i : Nat} (h : natlen k ≤ n) (hi : n ≤ i) : k.getLsbD i = false := by
  have h2 := ((natlen_le_iff k n).mp h).2
  have : k.toNat < 2 ^ i := Nat.lt_of_lt_of_le h2 (Nat.pow_le_pow_right (by decide) hi)
  exact Nat.testBit_lt_two_pow this

/-- Bit k after bit i is made b. -/
theorem getLsbD_setBit (v : Data) (i k : Nat) (b : Bool) (hk : k < 128) :
    (setBit v i b).getLsbD k = if k = i then b else v.getLsbD k := by
  have hbit : (1#128 <<< i).getLsbD k = decide (k = i) := by
    rw [BitVec.getLsbD_shiftLeft, BitVec.getLsbD_one]
    by_cases hki : k = i
    · simp [hki, hki ▸ hk]
    · simp [hki]
      omega
  unfold setBit
  by_cases h : k = i
  · cases b <;> simp only [Bool.false_eq_true, if_false, if_true, BitVec.getLsbD_and, BitVec.getLsbD_or,
      BitVec.getLsbD_not, hbit] <;> simp [h]
  · cases b <;> simp only [Bool.false_eq_true, if_false, if_true, BitVec.getLsbD_and, BitVec.getLsbD_or,
      BitVec.getLsbD_not, hbit] <;> simp [h, hk]

/-- Bit k of word j of a 128-bit value. -/
theorem getLsbD_dataWord (d : Data) (j : Fin 4) (k : Nat) :
    (dataWord d j).getLsbD k = (decide (k < 32) && d.getLsbD (32 * j.val + k)) := by
  simp [dataWord]

/-- Bit k of the value that four words make. -/
theorem getLsbD_dataOfWords (h : Vector Word 4) (k : Nat) (hk : k < 128) :
    (dataOfWords h).getLsbD k = (h[k / 32]'(by omega)).getLsbD (k % 32) := by
  have : k / 32 = 0 ∨ k / 32 = 1 ∨ k / 32 = 2 ∨ k / 32 = 3 := by omega
  simp only [dataOfWords, BitVec.getLsbD_append]
  rcases this with e | e | e | e <;> simp only [e]
  · rw [if_pos (by omega)]; congr 1; omega
  · rw [if_neg (by omega), if_pos (by omega)]; congr 1; omega
  · rw [if_neg (by omega), if_neg (by omega), if_pos (by omega)]; congr 1; omega
  · rw [if_neg (by omega), if_neg (by omega), if_neg (by omega)]; congr 1; omega

/-- Word j of the value that four words make. -/
theorem dataWord_dataOfWords (h : Vector Word 4) (j : Fin 4) : dataWord (dataOfWords h) j = h[j] := by
  refine BitVec.eq_of_getLsbD_eq fun k hk => ?_
  have hj := j.isLt
  rw [getLsbD_dataWord, getLsbD_dataOfWords h _ (by omega)]
  have h1 : (32 * j.val + k) / 32 = j.val := by omega
  have h2 : (32 * j.val + k) % 32 = k := by omega
  simp [h1, h2, hk]

end Sys2Proof.Machine
end

