-- ==== Sys2Proof/Laws/Code.lean ====
section
/-! SUPPORT. The bits of codewords and messages, and the sums of the transform. -/

namespace Sys2Proof.Machine

theorem endDim_eq (r : Nat) : endDim r = 2 ^ r := rfl

theorem startDim_eq (r : Nat) : startDim r = r + 1 := rfl

/-- A codeword length fits the register for r ≤ 7. -/
theorem endDim_le {r : Nat} (h : r ≤ 7) : endDim r ≤ 128 := Nat.pow_le_pow_right (n := 2) (by decide) h

/-- Bit c of a codeword. -/
theorem getLsbD_encf (r : Nat) (m : Data) (c : Nat) :
    (encf r m).getLsbD c = (decide (c < 2 ^ r) && decide (c < 128) && encodeBit r m c) := getLsbD_tabulate _ _ _

/-- Bit i of a decoded message. -/
theorem getLsbD_decf (r : Nat) (y : Data) (i : Nat) :
    (decf r y).getLsbD i = (decide (i < r + 1) && decide (i < 128) && decodeBit r y i) := getLsbD_tabulate _ _ _

theorem genMatrix_below {r i : Nat} (h : i < r) (c : Nat) : genMatrix r i c = c.testBit i := if_pos h

theorem genMatrix_top (r c : Nat) : genMatrix r r c = true := if_neg (Nat.lt_irrefl r)

/-- A bit of a codeword with row r of G taken out of the sum. -/
theorem encodeBit_eq (r : Nat) (m : Data) (c : Nat) :
    encodeBit r m c = (xorBelow (fun j => m.getLsbD j && c.testBit j) r ^^ m.getLsbD r) := by
  rw [encodeBit, startDim, xorBelow_succ, genMatrix_top, Bool.and_true]
  congr 1
  exact xorBelow_congr fun k hk => by rw [genMatrix_below hk]

/-- A bit of the codeword depends on the bits 0 to r of the message only. -/
theorem encodeBit_congr {r : Nat} {m m' : Data} (h : ∀ j < r + 1, m.getLsbD j = m'.getLsbD j) (c : Nat) :
    encodeBit r m c = encodeBit r m' c := xorBelow_congr fun k hk => by rw [h k hk]

/-- The Hamming distance as a count of the positions below n. -/
theorem hammingDist_eq (a b : Data) {n : Nat} (h : n ≤ 128) : hammingDist a b n = popcountBelow (a ^^^ b) n :=
  popcount_and_mask _ h

theorem sumBelow_eq_sum (f : Nat → Int) (n : Nat) : sumBelow f n = ∑ k ∈ Finset.range n, f k := by
  induction n with
  | zero => simp [sumBelow]
  | succ n ih => rw [sumBelow, Finset.sum_range_succ, ih]

theorem signOf_mul_signOf (a b : Bool) : signOf a * signOf b = signOf (a ^^ b) := by
  cases a <;> cases b <;> rfl

/-- A sum of signs counts the bits: n minus twice the ones. -/
theorem sumBelow_signOf (v : Data) (n : Nat) :
    sumBelow (fun k => signOf (v.getLsbD k)) n = (n : Int) - 2 * (popcountBelow v n : Int) := by
  induction n with
  | zero => simp [sumBelow]
  | succ n ih =>
    rw [sumBelow, ih, popcountBelow_succ]
    cases v.getLsbD n <;> simp [signOf] <;> omega

/-- The peak index is the lowest with the largest magnitude among the first n. -/
theorem peakIndex_spec (t : Nat → Int) (n : Nat) :
    (∀ j < n, (t j).natAbs ≤ (t (peakIndex t n)).natAbs) ∧
    (∀ j < peakIndex t n, (t j).natAbs < (t (peakIndex t n)).natAbs) ∧ (0 < n → peakIndex t n < n) := by
  induction n with
  | zero => simp [peakIndex]
  | succ n ih =>
    obtain ⟨hle, hlow, hlt⟩ := ih
    simp only [peakIndex]
    split
    · next h =>
      refine ⟨fun j hj => ?_, fun j hj => ?_, fun _ => by omega⟩
      · by_cases he : j = n
        · rw [he]
        · have := hle j (by omega)
          omega
      · have := hle j hj
        omega
    · next h =>
      refine ⟨fun j hj => ?_, hlow, fun _ => ?_⟩
      · by_cases he : j = n
        · rw [he]
          omega
        · exact hle j (by omega)
      · by_cases hn : n = 0
        · subst hn
          simp [peakIndex]
        · have := hlt (by omega)
          omega

/-- What `keepFirst` keeps is one of the two, and has the lesser distance. -/
theorem keepFirst_cases (b c : Best) :
    (keepFirst b c = c ∧ c.dist < b.dist) ∨ (keepFirst b c = b ∧ b.dist ≤ c.dist) := by
  unfold keepFirst
  split
  · exact .inl ⟨rfl, by assumption⟩
  · exact .inr ⟨rfl, by omega⟩

end Sys2Proof.Machine
end

