-- ==== Sys2Proof/Laws/Decode.lean ====
section
/-! SUPPORT. The one word format as a number and by its fields, and what it means for a row of the opcode map to hit a word. -/

namespace Sys2Proof

theorem append_toNat {n m : Nat} (a : BitVec n) (b : BitVec m) : (a ++ b).toNat = a.toNat * 2 ^ m + b.toNat := by
  rw [BitVec.toNat_append, ← Nat.shiftLeft_add_eq_or_of_lt b.isLt, Nat.shiftLeft_eq]

/-- The value of a formatted word. -/
theorem toNat_formatWord (op : BitVec 4) (vd va vb : VNum) {imm : Nat} (h : imm < 2 ^ 16) :
    (formatWord op vd va vb imm).toNat =
      imm * 2 ^ 16 + vb.val * 2 ^ 12 + va.val * 2 ^ 8 + vd.val * 16 + op.toNat := by
  have := vd.isLt
  have := va.isLt
  have := vb.isLt
  simp only [formatWord, append_toNat, BitVec.toNat_ofNat]
  rw [Nat.mod_eq_of_lt h]
  omega

@[simp] theorem fieldOP_formatWord (op : BitVec 4) (vd va vb : VNum) (imm : Nat) :
    fieldOP (formatWord op vd va vb imm) = op := BitVec.extractLsb'_append_eq_right

@[simp] theorem fieldVD_formatWord (op : BitVec 4) (vd va vb : VNum) (imm : Nat) :
    fieldVD (formatWord op vd va vb imm) = vd := by
  have := vd.isLt
  apply Fin.ext
  simp only [fieldVD, formatWord, BitVec.extractLsb'_toNat, append_toNat, BitVec.toNat_ofNat, Fin.ofNat,
    Nat.shiftRight_eq_div_pow]
  omega

@[simp] theorem fieldVA_formatWord (op : BitVec 4) (vd va vb : VNum) (imm : Nat) :
    fieldVA (formatWord op vd va vb imm) = va := by
  have := va.isLt
  apply Fin.ext
  simp only [fieldVA, formatWord, BitVec.extractLsb'_toNat, append_toNat, BitVec.toNat_ofNat, Fin.ofNat,
    Nat.shiftRight_eq_div_pow]
  omega

@[simp] theorem fieldVB_formatWord (op : BitVec 4) (vd va vb : VNum) (imm : Nat) :
    fieldVB (formatWord op vd va vb imm) = vb := by
  have := vb.isLt
  apply Fin.ext
  simp only [fieldVB, formatWord, BitVec.extractLsb'_toNat, append_toNat, BitVec.toNat_ofNat, Fin.ofNat,
    Nat.shiftRight_eq_div_pow]
  omega

theorem fieldIMM_formatWord (op : BitVec 4) (vd va vb : VNum) {imm : Nat} (h : imm < 2 ^ 16) :
    fieldIMM (formatWord op vd va vb imm) = imm := by
  simp only [fieldIMM, formatWord, BitVec.extractLsb'_toNat, append_toNat, BitVec.toNat_ofNat,
    Nat.shiftRight_eq_div_pow]
  omega

theorem fieldIMM_lt (w : Word) : fieldIMM w < 2 ^ 16 := (w.extractLsb' 16 16).isLt

/-! ### The fields as numbers -/

theorem fieldOP_toNat (w : Word) : (fieldOP w).toNat = w.toNat % 16 := by
  simp [fieldOP]

theorem fieldVD_eq (w : Word) : fieldVD w = Fin.ofNat 8 (w.toNat / 2 ^ 4) := by
  apply Fin.ext
  simp [fieldVD, Nat.shiftRight_eq_div_pow]

theorem fieldVA_eq (w : Word) : fieldVA w = Fin.ofNat 8 (w.toNat / 2 ^ 8) := by
  apply Fin.ext
  simp [fieldVA, Nat.shiftRight_eq_div_pow]

theorem fieldVB_eq (w : Word) : fieldVB w = Fin.ofNat 8 (w.toNat / 2 ^ 12) := by
  apply Fin.ext
  simp [fieldVB, Nat.shiftRight_eq_div_pow]

theorem fieldIMM_eq (w : Word) : fieldIMM w = w.toNat / 2 ^ 16 := by
  have := w.isLt
  simp only [fieldIMM, BitVec.extractLsb'_toNat, Nat.shiftRight_eq_div_pow]
  omega

/-! ### When a row hits -/

/-- A masked comparison bit by bit. -/
theorem and_mask_eq_iff_bits (w m p : Word) :
    w &&& m = p ↔ ∀ k < 32, (w.getLsbD k && m.getLsbD k) = p.getLsbD k := by
  constructor
  · intro h k _
    rw [← h, BitVec.getLsbD_and]
  · intro h
    exact BitVec.eq_of_getLsbD_eq fun k hk => by rw [BitVec.getLsbD_and]; exact h k hk

theorem ofNat_fieldVD (w : Word) : BitVec.ofNat 3 (fieldVD w).val = w.extractLsb' 4 3 := by
  apply BitVec.eq_of_toNat_eq
  simp [fieldVD]

theorem ofNat_fieldVA (w : Word) : BitVec.ofNat 3 (fieldVA w).val = w.extractLsb' 8 3 := by
  apply BitVec.eq_of_toNat_eq
  simp [fieldVA]

theorem ofNat_fieldVB (w : Word) : BitVec.ofNat 3 (fieldVB w).val = w.extractLsb' 12 3 := by
  apply BitVec.eq_of_toNat_eq
  simp [fieldVB]

theorem ofNat_fieldIMM (w : Word) : BitVec.ofNat 16 (fieldIMM w) = w.extractLsb' 16 16 := by
  apply BitVec.eq_of_toNat_eq
  simp [fieldIMM]

/-- A word matches LOAD's row exactly when it is a formatted word with opcode 1 and the fields VA and VB zero. -/
theorem hits_load (w : Word) :
    w &&& 0x0000FF8F = 0x00000001 ↔ w = formatWord 1 (fieldVD w) 0 0 (fieldIMM w) := by
  simp only [and_mask_eq_iff_bits, formatWord, ofNat_fieldVD, ofNat_fieldIMM]
  constructor
  · intro h
    refine BitVec.eq_of_getLsbD_eq fun k hk => ?_
    have hk' := h k hk
    simp only [BitVec.getLsbD_append, BitVec.getLsbD_extractLsb']
    interval_cases k <;> simp_all
  · intro h k hk
    rw [h]
    simp only [BitVec.getLsbD_append]
    interval_cases k <;> simp

/-- A word matches a row with three register operands exactly when it is a formatted word with that opcode and IMM zero. -/
theorem hits_three (op : BitVec 4) (w : Word) :
    w &&& 0xFFFF888F = op.setWidth 32 ↔ w = formatWord op (fieldVD w) (fieldVA w) (fieldVB w) 0 := by
  simp only [and_mask_eq_iff_bits, formatWord, ofNat_fieldVD, ofNat_fieldVA, ofNat_fieldVB]
  constructor
  · intro h
    refine BitVec.eq_of_getLsbD_eq fun k hk => ?_
    have hk' := h k hk
    simp only [BitVec.getLsbD_append, BitVec.getLsbD_extractLsb']
    interval_cases k <;> simp_all
  · intro h k hk
    rw [h]
    simp only [BitVec.getLsbD_append, BitVec.getLsbD_setWidth]
    interval_cases k <;> simp

/-- A word matches a row with operands VD and VA exactly when it is a formatted word with that opcode and VB and IMM zero. -/
theorem hits_two (op : BitVec 4) (w : Word) :
    w &&& 0xFFFFF88F = op.setWidth 32 ↔ w = formatWord op (fieldVD w) (fieldVA w) 0 0 := by
  simp only [and_mask_eq_iff_bits, formatWord, ofNat_fieldVD, ofNat_fieldVA]
  constructor
  · intro h
    refine BitVec.eq_of_getLsbD_eq fun k hk => ?_
    have hk' := h k hk
    simp only [BitVec.getLsbD_append, BitVec.getLsbD_extractLsb']
    interval_cases k <;> simp_all
  · intro h k hk
    rw [h]
    simp only [BitVec.getLsbD_append, BitVec.getLsbD_setWidth]
    interval_cases k <;> simp

/-- A word matches HDIST's row exactly when it is a formatted word with opcode 7 and VD and IMM zero. -/
theorem hits_hdist (w : Word) :
    w &&& 0xFFFF88FF = 0x00000007 ↔ w = formatWord 7 0 (fieldVA w) (fieldVB w) 0 := by
  simp only [and_mask_eq_iff_bits, formatWord, ofNat_fieldVA, ofNat_fieldVB]
  constructor
  · intro h
    refine BitVec.eq_of_getLsbD_eq fun k hk => ?_
    have hk' := h k hk
    simp only [BitVec.getLsbD_append, BitVec.getLsbD_extractLsb']
    interval_cases k <;> simp_all
  · intro h k hk
    rw [h]
    simp only [BitVec.getLsbD_append]
    interval_cases k <;> simp

/-- The decoder as a comparison of the word with the formatted words of its own fields, opcode by opcode. -/
theorem decode_eq (w : Word) : decode w =
    if w = formatWord 1 (fieldVD w) 0 0 (fieldIMM w) then .ok (.load (fieldVD w) (fieldIMM w))
    else if w = formatWord 2 (fieldVD w) (fieldVA w) (fieldVB w) 0 then
      .ok (.vxor (fieldVD w) (fieldVA w) (fieldVB w))
    else if w = formatWord 3 (fieldVD w) (fieldVA w) (fieldVB w) 0 then
      .ok (.vand (fieldVD w) (fieldVA w) (fieldVB w))
    else if w = formatWord 4 (fieldVD w) (fieldVA w) 0 0 then .ok (.vnot (fieldVD w) (fieldVA w))
    else if w = formatWord 5 (fieldVD w) (fieldVA w) 0 0 then .ok (.enc (fieldVD w) (fieldVA w))
    else if w = formatWord 6 (fieldVD w) (fieldVA w) 0 0 then .ok (.dec (fieldVD w) (fieldVA w))
    else if w = formatWord 7 0 (fieldVA w) (fieldVB w) 0 then .ok (.hdist (fieldVA w) (fieldVB w))
    else if w = formatWord 8 (fieldVD w) (fieldVA w) 0 0 then .ok (.srch (fieldVD w) (fieldVA w))
    else if w = formatWord 9 (fieldVD w) (fieldVA w) 0 0 then .ok (.fsrch (fieldVD w) (fieldVA w))
    else .error (whyIllegal w) := by
  simp only [← hits_load, ← hits_three, ← hits_two, ← hits_hdist]
  rfl

/-- Formatted words with different opcodes differ. -/
theorem formatWord_ne {op op' : BitVec 4} (h : op ≠ op') (a b c a' b' c' : VNum) (d d' : Nat) :
    formatWord op a b c d ≠ formatWord op' a' b' c' d' := fun he => h (by simpa using congrArg fieldOP he)

end Sys2Proof
end

