-- ==== Sys2Proof/Laws/State.lean ====
section
/-! SUPPORT. One lemma per field per named update of State, each true by rfl, and the accessors over the updates. -/

namespace Sys2Proof.Machine

/-! ### State.setVreg -/

@[simp] theorem State.setVreg_v (s : State) (i : VNum) (n : Nat) (d : Data) : (s.setVreg i n d).v = s.v.set i ⟨n, d⟩ := rfl
@[simp] theorem State.setVreg_order (s : State) (i : VNum) (n : Nat) (d : Data) : (s.setVreg i n d).order = s.order := rfl
@[simp] theorem State.setVreg_err (s : State) (i : VNum) (n : Nat) (d : Data) : (s.setVreg i n d).err = s.err := rfl
@[simp] theorem State.setVreg_ovr (s : State) (i : VNum) (n : Nat) (d : Data) : (s.setVreg i n d).ovr = s.ovr := rfl
@[simp] theorem State.setVreg_errcode (s : State) (i : VNum) (n : Nat) (d : Data) : (s.setVreg i n d).errcode = s.errcode := rfl
@[simp] theorem State.setVreg_result0 (s : State) (i : VNum) (n : Nat) (d : Data) : (s.setVreg i n d).result0 = s.result0 := rfl
@[simp] theorem State.setVreg_result1 (s : State) (i : VNum) (n : Nat) (d : Data) : (s.setVreg i n d).result1 = s.result1 := rfl
@[simp] theorem State.setVreg_hdata (s : State) (i : VNum) (n : Nat) (d : Data) : (s.setVreg i n d).hdata = s.hdata := rfl
@[simp] theorem State.setVreg_cmdl (s : State) (i : VNum) (n : Nat) (d : Data) : (s.setVreg i n d).cmdl = s.cmdl := rfl
@[simp] theorem State.setVreg_inReset (s : State) (i : VNum) (n : Nat) (d : Data) : (s.setVreg i n d).inReset = s.inReset := rfl
@[simp] theorem State.setVreg_inputs (s : State) (i : VNum) (n : Nat) (d : Data) : (s.setVreg i n d).inputs = s.inputs := rfl
@[simp] theorem State.setVreg_accesses (s : State) (i : VNum) (n : Nat) (d : Data) : (s.setVreg i n d).accesses = s.accesses := rfl
@[simp] theorem State.setVreg_wait (s : State) (i : VNum) (n : Nat) (d : Data) : (s.setVreg i n d).wait = s.wait := rfl
@[simp] theorem State.setVreg_issues (s : State) (i : VNum) (n : Nat) (d : Data) : (s.setVreg i n d).issues = s.issues := rfl

/-! ### State.setResults -/

@[simp] theorem State.setResults_v (s : State) (x y : Word) : (s.setResults x y).v = s.v := rfl
@[simp] theorem State.setResults_order (s : State) (x y : Word) : (s.setResults x y).order = s.order := rfl
@[simp] theorem State.setResults_err (s : State) (x y : Word) : (s.setResults x y).err = s.err := rfl
@[simp] theorem State.setResults_ovr (s : State) (x y : Word) : (s.setResults x y).ovr = s.ovr := rfl
@[simp] theorem State.setResults_errcode (s : State) (x y : Word) : (s.setResults x y).errcode = s.errcode := rfl
@[simp] theorem State.setResults_result0 (s : State) (x y : Word) : (s.setResults x y).result0 = x := rfl
@[simp] theorem State.setResults_result1 (s : State) (x y : Word) : (s.setResults x y).result1 = y := rfl
@[simp] theorem State.setResults_hdata (s : State) (x y : Word) : (s.setResults x y).hdata = s.hdata := rfl
@[simp] theorem State.setResults_cmdl (s : State) (x y : Word) : (s.setResults x y).cmdl = s.cmdl := rfl
@[simp] theorem State.setResults_inReset (s : State) (x y : Word) : (s.setResults x y).inReset = s.inReset := rfl
@[simp] theorem State.setResults_inputs (s : State) (x y : Word) : (s.setResults x y).inputs = s.inputs := rfl
@[simp] theorem State.setResults_accesses (s : State) (x y : Word) : (s.setResults x y).accesses = s.accesses := rfl
@[simp] theorem State.setResults_wait (s : State) (x y : Word) : (s.setResults x y).wait = s.wait := rfl
@[simp] theorem State.setResults_issues (s : State) (x y : Word) : (s.setResults x y).issues = s.issues := rfl

/-! ### State.resetBlock -/

@[simp] theorem State.resetBlock_v (s : State) : (s.resetBlock).v = State.reset.v := rfl
@[simp] theorem State.resetBlock_order (s : State) : (s.resetBlock).order = 0 := rfl
@[simp] theorem State.resetBlock_err (s : State) : (s.resetBlock).err = false := rfl
@[simp] theorem State.resetBlock_ovr (s : State) : (s.resetBlock).ovr = false := rfl
@[simp] theorem State.resetBlock_errcode (s : State) : (s.resetBlock).errcode = 0 := rfl
@[simp] theorem State.resetBlock_result0 (s : State) : (s.resetBlock).result0 = 0 := rfl
@[simp] theorem State.resetBlock_result1 (s : State) : (s.resetBlock).result1 = 0 := rfl
@[simp] theorem State.resetBlock_hdata (s : State) : (s.resetBlock).hdata = State.reset.hdata := rfl
@[simp] theorem State.resetBlock_cmdl (s : State) : (s.resetBlock).cmdl = none := rfl
@[simp] theorem State.resetBlock_inReset (s : State) : (s.resetBlock).inReset = s.inReset := rfl
@[simp] theorem State.resetBlock_inputs (s : State) : (s.resetBlock).inputs = s.inputs := rfl
@[simp] theorem State.resetBlock_accesses (s : State) : (s.resetBlock).accesses = s.accesses := rfl
@[simp] theorem State.resetBlock_wait (s : State) : (s.resetBlock).wait = 0 := rfl
@[simp] theorem State.resetBlock_issues (s : State) : (s.resetBlock).issues = s.issues := rfl

/-! ### clearStatus -/

@[simp] theorem clearStatus_v (s : State) (x : Word) : (clearStatus x s).v = s.v := rfl
@[simp] theorem clearStatus_order (s : State) (x : Word) : (clearStatus x s).order = s.order := rfl
@[simp] theorem clearStatus_err (s : State) (x : Word) : (clearStatus x s).err = (s.err && !x.getLsbD 1) := rfl
@[simp] theorem clearStatus_ovr (s : State) (x : Word) : (clearStatus x s).ovr = (s.ovr && !x.getLsbD 2) := rfl
@[simp] theorem clearStatus_errcode (s : State) (x : Word) : (clearStatus x s).errcode = s.errcode := rfl
@[simp] theorem clearStatus_result0 (s : State) (x : Word) : (clearStatus x s).result0 = s.result0 := rfl
@[simp] theorem clearStatus_result1 (s : State) (x : Word) : (clearStatus x s).result1 = s.result1 := rfl
@[simp] theorem clearStatus_hdata (s : State) (x : Word) : (clearStatus x s).hdata = s.hdata := rfl
@[simp] theorem clearStatus_cmdl (s : State) (x : Word) : (clearStatus x s).cmdl = s.cmdl := rfl
@[simp] theorem clearStatus_inReset (s : State) (x : Word) : (clearStatus x s).inReset = s.inReset := rfl
@[simp] theorem clearStatus_inputs (s : State) (x : Word) : (clearStatus x s).inputs = s.inputs := rfl
@[simp] theorem clearStatus_accesses (s : State) (x : Word) : (clearStatus x s).accesses = s.accesses := rfl
@[simp] theorem clearStatus_wait (s : State) (x : Word) : (clearStatus x s).wait = s.wait := rfl
@[simp] theorem clearStatus_issues (s : State) (x : Word) : (clearStatus x s).issues = s.issues := rfl

/-! ### issue -/

@[simp] theorem issue_v (s : State) (x : Word) : (issue x s).v = s.v := rfl
@[simp] theorem issue_order (s : State) (x : Word) : (issue x s).order = s.order := rfl
@[simp] theorem issue_err (s : State) (x : Word) : (issue x s).err = s.err := rfl
@[simp] theorem issue_ovr (s : State) (x : Word) : (issue x s).ovr = s.ovr := rfl
@[simp] theorem issue_errcode (s : State) (x : Word) : (issue x s).errcode = s.errcode := rfl
@[simp] theorem issue_result0 (s : State) (x : Word) : (issue x s).result0 = s.result0 := rfl
@[simp] theorem issue_result1 (s : State) (x : Word) : (issue x s).result1 = s.result1 := rfl
@[simp] theorem issue_hdata (s : State) (x : Word) : (issue x s).hdata = s.hdata := rfl
@[simp] theorem issue_cmdl (s : State) (x : Word) : (issue x s).cmdl = some x := rfl
@[simp] theorem issue_inReset (s : State) (x : Word) : (issue x s).inReset = s.inReset := rfl
@[simp] theorem issue_inputs (s : State) (x : Word) : (issue x s).inputs = s.inputs := rfl
@[simp] theorem issue_accesses (s : State) (x : Word) : (issue x s).accesses = s.accesses := rfl
@[simp] theorem issue_wait (s : State) (x : Word) : (issue x s).wait = Config.latency s.issues x s.order s.hdataValue s.v := rfl
@[simp] theorem issue_issues (s : State) (x : Word) : (issue x s).issues = s.issues + 1 := rfl

/-! ### State.record -/

@[simp] theorem State.record_v (s : State) (a : Access) : (s.record a).v = s.v := rfl
@[simp] theorem State.record_order (s : State) (a : Access) : (s.record a).order = s.order := rfl
@[simp] theorem State.record_err (s : State) (a : Access) : (s.record a).err = s.err := rfl
@[simp] theorem State.record_ovr (s : State) (a : Access) : (s.record a).ovr = s.ovr := rfl
@[simp] theorem State.record_errcode (s : State) (a : Access) : (s.record a).errcode = s.errcode := rfl
@[simp] theorem State.record_result0 (s : State) (a : Access) : (s.record a).result0 = s.result0 := rfl
@[simp] theorem State.record_result1 (s : State) (a : Access) : (s.record a).result1 = s.result1 := rfl
@[simp] theorem State.record_hdata (s : State) (a : Access) : (s.record a).hdata = s.hdata := rfl
@[simp] theorem State.record_cmdl (s : State) (a : Access) : (s.record a).cmdl = s.cmdl := rfl
@[simp] theorem State.record_inReset (s : State) (a : Access) : (s.record a).inReset = s.inReset := rfl
@[simp] theorem State.record_inputs (s : State) (a : Access) : (s.record a).inputs = s.inputs := rfl
@[simp] theorem State.record_accesses (s : State) (a : Access) : (s.record a).accesses = a :: s.accesses := rfl
@[simp] theorem State.record_wait (s : State) (a : Access) : (s.record a).wait = s.wait := rfl
@[simp] theorem State.record_issues (s : State) (a : Access) : (s.record a).issues = s.issues := rfl

@[simp] theorem State.serveRead_eq (s : State) (off width : Nat) :
    s.serveRead off width = s.record (.read off width (portRead off width s)) := rfl
@[simp] theorem State.serveWrite_eq (s : State) (off width : Nat) (x : Word) :
    s.serveWrite off width x = (portWrite off width x s).record (.write off width x) := rfl

/-! ### State.withFetchWord -/

@[simp] theorem State.withFetchWord_v (s : State) (nbits w : Nat) : (s.withFetchWord nbits w).v = s.v := rfl
@[simp] theorem State.withFetchWord_order (s : State) (nbits w : Nat) : (s.withFetchWord nbits w).order = s.order := rfl
@[simp] theorem State.withFetchWord_err (s : State) (nbits w : Nat) : (s.withFetchWord nbits w).err = s.err := rfl
@[simp] theorem State.withFetchWord_ovr (s : State) (nbits w : Nat) : (s.withFetchWord nbits w).ovr = s.ovr := rfl
@[simp] theorem State.withFetchWord_errcode (s : State) (nbits w : Nat) : (s.withFetchWord nbits w).errcode = s.errcode := rfl
@[simp] theorem State.withFetchWord_result0 (s : State) (nbits w : Nat) : (s.withFetchWord nbits w).result0 = s.result0 := rfl
@[simp] theorem State.withFetchWord_result1 (s : State) (nbits w : Nat) : (s.withFetchWord nbits w).result1 = s.result1 := rfl
@[simp] theorem State.withFetchWord_hdata (s : State) (nbits w : Nat) : (s.withFetchWord nbits w).hdata = s.hdata := rfl
@[simp] theorem State.withFetchWord_cmdl (s : State) (nbits w : Nat) : (s.withFetchWord nbits w).cmdl = some (BitVec.ofNat 32 (w % 2 ^ nbits)) := rfl
@[simp] theorem State.withFetchWord_inReset (s : State) (nbits w : Nat) : (s.withFetchWord nbits w).inReset = false := rfl
@[simp] theorem State.withFetchWord_inputs (s : State) (nbits w : Nat) : (s.withFetchWord nbits w).inputs = s.inputs := rfl
@[simp] theorem State.withFetchWord_accesses (s : State) (nbits w : Nat) : (s.withFetchWord nbits w).accesses = s.accesses := rfl
@[simp] theorem State.withFetchWord_wait (s : State) (nbits w : Nat) : (s.withFetchWord nbits w).wait = 0 := rfl
@[simp] theorem State.withFetchWord_issues (s : State) (nbits w : Nat) : (s.withFetchWord nbits w).issues = s.issues := rfl

/-! ### Accessors over the updates -/

@[simp] theorem State.vreg_setVreg_same (s : State) (i : VNum) (n : Nat) (d : Data) : (s.setVreg i n d).vreg i = ⟨n, d⟩ := by
  simp [State.vreg]

theorem State.vreg_setVreg_other (s : State) {i k : VNum} (n : Nat) (d : Data) (h : k ≠ i) :
    (s.setVreg i n d).vreg k = s.vreg k := by
  have : i.val ≠ k.val := fun e => h (Fin.ext e.symm)
  simp [State.vreg, this]

/-- A vector register after a write of V[i]. -/
theorem State.vreg_setVreg (s : State) (i k : VNum) (n : Nat) (d : Data) :
    (s.setVreg i n d).vreg k = if k = i then ⟨n, d⟩ else s.vreg k := by
  split
  · next h => subst h; simp
  · next h => exact s.vreg_setVreg_other n d h

@[simp] theorem State.vreg_setResults (s : State) (x y : Word) (k : VNum) : (s.setResults x y).vreg k = s.vreg k := rfl
@[simp] theorem State.vreg_record (s : State) (a : Access) (k : VNum) : (s.record a).vreg k = s.vreg k := rfl
@[simp] theorem State.vreg_issue (s : State) (x : Word) (k : VNum) : (issue x s).vreg k = s.vreg k := rfl
@[simp] theorem State.vreg_clearStatus (s : State) (x : Word) (k : VNum) : (clearStatus x s).vreg k = s.vreg k := rfl
@[simp] theorem State.vreg_resetBlock (s : State) (k : VNum) : s.resetBlock.vreg k = ⟨0, 0⟩ := by
  simp [State.vreg, State.reset]

@[simp] theorem State.hdataValue_setVreg (s : State) (i : VNum) (n : Nat) (d : Data) :
    (s.setVreg i n d).hdataValue = s.hdataValue := rfl
@[simp] theorem State.hdataValue_setResults (s : State) (x y : Word) : (s.setResults x y).hdataValue = s.hdataValue := rfl

@[simp] theorem State.orderNat_setVreg (s : State) (i : VNum) (n : Nat) (d : Data) :
    (s.setVreg i n d).orderNat = s.orderNat := rfl
@[simp] theorem State.orderNat_setResults (s : State) (x y : Word) : (s.setResults x y).orderNat = s.orderNat := rfl

@[simp] theorem State.busy_issue (s : State) (x : Word) : (issue x s).busy = true := rfl
@[simp] theorem State.busy_resetBlock (s : State) : s.resetBlock.busy = false := rfl
@[simp] theorem State.busy_record (s : State) (a : Access) : (s.record a).busy = s.busy := rfl
@[simp] theorem State.busy_clearStatus (s : State) (x : Word) : (clearStatus x s).busy = s.busy := rfl

/-- BUSY is 1 exactly while CMDL is valid. -/
theorem State.busy_iff (s : State) : s.busy = true ↔ ∃ w, s.cmdl = some w := by
  simp [State.busy, Option.isSome_iff_exists]

theorem State.not_busy_iff (s : State) : s.busy = false ↔ s.cmdl = none := by
  simp [State.busy]

end Sys2Proof.Machine
end

