-- ==== Sys2Proof/Laws/Ops.lean ====
section
/-! SUPPORT. What the shared operations can do, said once: the operand checks, the two ends of a command, every command, the port
and the step. -/

namespace Sys2Proof.Machine

/-! ### The operand checks -/

theorem needVec_empty {i : VNum} {s : State} (rest : Answer) (h : (s.vreg i).len = 0) :
    needVec i s rest = raiseError .emptyOperand s := if_pos h

theorem needVec_held {i : VNum} {s : State} (rest : Answer) (h : (s.vreg i).len ≠ 0) : needVec i s rest = rest := if_neg h

theorem sameLen_differ {a b : VNum} {s : State} (rest : Answer) (h : (s.vreg a).len ≠ (s.vreg b).len) :
    sameLen a b s rest = raiseError .lengthMismatch s := if_pos h

theorem sameLen_same {a b : VNum} {s : State} (rest : Answer) (h : (s.vreg a).len = (s.vreg b).len) :
    sameLen a b s rest = rest := if_neg (not_not_intro h)

theorem needLen_differ {i : VNum} {n : Nat} {s : State} (rest : Answer) (h : (s.vreg i).len ≠ n) :
    needLen i n s rest = raiseError .lengthMismatch s := if_pos h

theorem needLen_same {i : VNum} {n : Nat} {s : State} (rest : Answer) (h : (s.vreg i).len = n) :
    needLen i n s rest = rest := if_neg (not_not_intro h)

theorem orderValid_iff (s : State) : s.orderValid = true ↔ 1 ≤ s.order.toNat ∧ s.order.toNat ≤ 7 := by
  rw [State.orderValid, decide_eq_true_iff]
  rfl

theorem needOrder_valid {s : State} (rest : Nat → Answer) (h : 1 ≤ s.order.toNat ∧ s.order.toNat ≤ 7) :
    needOrder s rest = rest s.order.toNat := if_pos ((orderValid_iff s).mpr h)

theorem needOrder_invalid {s : State} (rest : Nat → Answer) (h : ¬ (1 ≤ s.order.toNat ∧ s.order.toNat ≤ 7)) :
    needOrder s rest = raiseError .invalidOrder s := if_neg fun hv => h ((orderValid_iff s).mp hv)

/-- `needVec` raises its error or goes on. -/
theorem needVec_cases (i : VNum) (s : State) (rest : Answer) :
    ((s.vreg i).len = 0 ∧ needVec i s rest = raiseError .emptyOperand s) ∨
    ((s.vreg i).len ≠ 0 ∧ needVec i s rest = rest) := by
  by_cases h : (s.vreg i).len = 0
  · exact .inl ⟨h, needVec_empty rest h⟩
  · exact .inr ⟨h, needVec_held rest h⟩

/-- `sameLen` raises its error or goes on. -/
theorem sameLen_cases (a b : VNum) (s : State) (rest : Answer) :
    ((s.vreg a).len ≠ (s.vreg b).len ∧ sameLen a b s rest = raiseError .lengthMismatch s) ∨
    ((s.vreg a).len = (s.vreg b).len ∧ sameLen a b s rest = rest) := by
  by_cases h : (s.vreg a).len = (s.vreg b).len
  · exact .inr ⟨h, sameLen_same rest h⟩
  · exact .inl ⟨h, sameLen_differ rest h⟩

/-- `needLen` raises its error or goes on. -/
theorem needLen_cases (i : VNum) (n : Nat) (s : State) (rest : Answer) :
    ((s.vreg i).len ≠ n ∧ needLen i n s rest = raiseError .lengthMismatch s) ∨
    ((s.vreg i).len = n ∧ needLen i n s rest = rest) := by
  by_cases h : (s.vreg i).len = n
  · exact .inr ⟨h, needLen_same rest h⟩
  · exact .inl ⟨h, needLen_differ rest h⟩

/-- `needOrder` raises its error or goes on with r. -/
theorem needOrder_cases (s : State) (rest : Nat → Answer) :
    (¬ (1 ≤ s.order.toNat ∧ s.order.toNat ≤ 7) ∧ needOrder s rest = raiseError .invalidOrder s) ∨
    ((1 ≤ s.order.toNat ∧ s.order.toNat ≤ 7) ∧ needOrder s rest = rest s.order.toNat) := by
  by_cases h : 1 ≤ s.order.toNat ∧ s.order.toNat ≤ 7
  · exact .inr ⟨h, needOrder_valid rest h⟩
  · exact .inl ⟨h, needOrder_invalid rest h⟩

/-! ### The two ends of a command -/

/-- The state that `raise E` leaves. -/
theorem raiseError_next {e : ErrorKind} {s t : State} (h : raiseError e s = .next t) :
    t = { s with errcode := e.code, err := true, cmdl := none } := by
  cases h
  rfl

/-- The state that `complete` leaves. -/
theorem complete_next {s t : State} (h : complete s = .next t) : t = { s with errcode := 0, cmdl := none } := by
  cases h
  rfl

theorem ErrorKind.code_ne_zero (e : ErrorKind) : e.code ≠ 0 := by
  cases e <;> decide

/-! ### The commands on the path that succeeds, and the errors of LOAD -/

theorem execLoad_ok {vd : VNum} {n : Nat} {s : State} (hn : n ≤ 128) (h : natlen s.hdataValue ≤ n) :
    execLoad vd n s = complete (s.setVreg vd n s.hdataValue) := by
  rw [execLoad, if_neg (by simpa [Config.vmax, Config.rmax] using hn), if_neg (Nat.not_lt.mpr h)]

theorem execLoad_long {vd : VNum} {n : Nat} {s : State} (hn : 128 < n) :
    execLoad vd n s = raiseError .lengthOutOfRange s := if_pos hn

theorem execLoad_short {vd : VNum} {n : Nat} {s : State} (hn : n ≤ 128) (h : n < natlen s.hdataValue) :
    execLoad vd n s = raiseError .sizeTooSmall s := by
  rw [execLoad, if_neg (by simpa [Config.vmax, Config.rmax] using hn), if_pos h]

theorem execVxor_ok {vd va vb : VNum} {s : State} (ha : (s.vreg va).len ≠ 0) (h : (s.vreg va).len = (s.vreg vb).len) :
    execVxor vd va vb s =
      complete (s.setVreg vd (s.vreg va).len ((s.vreg va).data ^^^ (s.vreg vb).data)) := by
  rw [execVxor, needVec_held _ ha, needVec_held _ (h ▸ ha), sameLen_same _ h]

theorem execVand_ok {vd va vb : VNum} {s : State} (ha : (s.vreg va).len ≠ 0) (h : (s.vreg va).len = (s.vreg vb).len) :
    execVand vd va vb s =
      complete (s.setVreg vd (s.vreg va).len ((s.vreg va).data &&& (s.vreg vb).data)) := by
  rw [execVand, needVec_held _ ha, needVec_held _ (h ▸ ha), sameLen_same _ h]

theorem execVnot_ok {vd va : VNum} {s : State} (ha : (s.vreg va).len ≠ 0) :
    execVnot vd va s =
      complete (s.setVreg vd (s.vreg va).len (~~~(s.vreg va).data &&& mask (s.vreg va).len)) := by
  rw [execVnot, needVec_held _ ha]

theorem execHdist_ok {va vb : VNum} {s : State} (ha : (s.vreg va).len ≠ 0) (h : (s.vreg va).len = (s.vreg vb).len) :
    execHdist va vb s =
      complete (s.setResults
        (BitVec.ofNat 32 (hammingDist (s.vreg va).data (s.vreg vb).data (s.vreg va).len)) 0) := by
  rw [execHdist, needVec_held _ ha, needVec_held _ (h ▸ ha), sameLen_same _ h]

/-- A length of a code command is not 0. -/
theorem endDim_ne_zero (r : Nat) : endDim r ≠ 0 := Nat.pos_iff_ne_zero.mp (Nat.two_pow_pos r)

theorem execEnc_ok {vd va : VNum} {s : State} (hr : 1 ≤ s.order.toNat ∧ s.order.toNat ≤ 7)
    (h : (s.vreg va).len = startDim s.order.toNat) :
    execEnc vd va s = complete (s.setVreg vd (endDim s.order.toNat) (encf s.order.toNat (s.vreg va).data)) := by
  rw [execEnc, needOrder_valid _ hr, needVec_held _ (h ▸ Nat.succ_ne_zero _), needLen_same _ h]

theorem execDec_ok {vd va : VNum} {s : State} (hr : 1 ≤ s.order.toNat ∧ s.order.toNat ≤ 7)
    (h : (s.vreg va).len = endDim s.order.toNat) :
    execDec vd va s = complete (s.setVreg vd (startDim s.order.toNat) (decf s.order.toNat (s.vreg va).data)) := by
  rw [execDec, needOrder_valid _ hr, needVec_held _ (h ▸ endDim_ne_zero _), needLen_same _ h]

theorem execSrch_ok {vd va : VNum} {s : State} (hr : 1 ≤ s.order.toNat ∧ s.order.toNat ≤ 7)
    (h : (s.vreg va).len = endDim s.order.toNat) :
    execSrch vd va s =
      complete ((s.setVreg vd (endDim s.order.toNat) (srchf s.order.toNat (s.vreg va).data).codeword).setResults
        ((srchf s.order.toNat (s.vreg va).data).msg.setWidth 32)
        (BitVec.ofInt 32 (srchf s.order.toNat (s.vreg va).data).dist)) := by
  rw [execSrch, needOrder_valid _ hr, needVec_held _ (h ▸ endDim_ne_zero _), needLen_same _ h]

theorem execFsrch_ok {vd va : VNum} {s : State} (hr : 1 ≤ s.order.toNat ∧ s.order.toNat ≤ 7)
    (h : (s.vreg va).len = endDim s.order.toNat) :
    execFsrch vd va s =
      complete ((s.setVreg vd (endDim s.order.toNat) (fsrchf s.order.toNat (s.vreg va).data).codeword).setResults
        (BitVec.ofNat 32 (fsrchf s.order.toNat (s.vreg va).data).msg)
        (BitVec.ofInt 32 (fsrchf s.order.toNat (s.vreg va).data).peak)) := by
  rw [execFsrch, needOrder_valid _ hr, needVec_held _ (h ▸ endDim_ne_zero _), needLen_same _ h]

/-! ### Every command -/

/-- What a successful command writes before `complete`: its results as a function of its operands, with the conditions under
which it succeeds. -/
inductive Writes : Instr → State → State → Prop where
  | load {vd n s} : n ≤ 128 → natlen s.hdataValue ≤ n → Writes (.load vd n) s (s.setVreg vd n s.hdataValue)
  | vxor {vd va vb s} : (s.vreg va).len ≠ 0 → (s.vreg va).len = (s.vreg vb).len →
      Writes (.vxor vd va vb) s (s.setVreg vd (s.vreg va).len ((s.vreg va).data ^^^ (s.vreg vb).data))
  | vand {vd va vb s} : (s.vreg va).len ≠ 0 → (s.vreg va).len = (s.vreg vb).len →
      Writes (.vand vd va vb) s (s.setVreg vd (s.vreg va).len ((s.vreg va).data &&& (s.vreg vb).data))
  | vnot {vd va s} : (s.vreg va).len ≠ 0 →
      Writes (.vnot vd va) s (s.setVreg vd (s.vreg va).len (~~~(s.vreg va).data &&& mask (s.vreg va).len))
  | enc {vd va s} : 1 ≤ s.order.toNat → s.order.toNat ≤ 7 → (s.vreg va).len = startDim s.order.toNat →
      Writes (.enc vd va) s (s.setVreg vd (endDim s.order.toNat) (encf s.order.toNat (s.vreg va).data))
  | dec {vd va s} : 1 ≤ s.order.toNat → s.order.toNat ≤ 7 → (s.vreg va).len = endDim s.order.toNat →
      Writes (.dec vd va) s (s.setVreg vd (startDim s.order.toNat) (decf s.order.toNat (s.vreg va).data))
  | hdist {va vb s} : (s.vreg va).len ≠ 0 → (s.vreg va).len = (s.vreg vb).len →
      Writes (.hdist va vb) s
        (s.setResults (BitVec.ofNat 32 (hammingDist (s.vreg va).data (s.vreg vb).data (s.vreg va).len)) 0)
  | srch {vd va s} : 1 ≤ s.order.toNat → s.order.toNat ≤ 7 → (s.vreg va).len = endDim s.order.toNat →
      Writes (.srch vd va) s
        ((s.setVreg vd (endDim s.order.toNat) (srchf s.order.toNat (s.vreg va).data).codeword).setResults
          ((srchf s.order.toNat (s.vreg va).data).msg.setWidth 32)
          (BitVec.ofInt 32 (srchf s.order.toNat (s.vreg va).data).dist))
  | fsrch {vd va s} : 1 ≤ s.order.toNat → s.order.toNat ≤ 7 → (s.vreg va).len = endDim s.order.toNat →
      Writes (.fsrch vd va) s
        ((s.setVreg vd (endDim s.order.toNat) (fsrchf s.order.toNat (s.vreg va).data).codeword).setResults
          (BitVec.ofNat 32 (fsrchf s.order.toNat (s.vreg va).data).msg)
          (BitVec.ofInt 32 (fsrchf s.order.toNat (s.vreg va).data).peak))

/-- Every command raises one error, or writes its results and completes. -/
theorem exec_cases (i : Instr) (s : State) :
    (∃ e, e ∈ [ErrorKind.lengthMismatch, .sizeTooSmall, .invalidOrder, .lengthOutOfRange, .emptyOperand] ∧
      exec i s = raiseError e s) ∨
    ∃ u, Writes i s u ∧ exec i s = complete u := by
  cases i with
  | load vd n =>
    by_cases hn : n ≤ 128
    · by_cases hl : natlen s.hdataValue ≤ n
      · exact .inr ⟨_, .load hn hl, execLoad_ok hn hl⟩
      · exact .inl ⟨_, by simp, execLoad_short hn (Nat.lt_of_not_le hl)⟩
    · exact .inl ⟨_, by simp, execLoad_long (Nat.lt_of_not_le hn)⟩
  | vxor vd va vb =>
    simp only [exec, execVxor]
    rcases needVec_cases va s _ with ⟨_, e⟩ | ⟨ha, e⟩ <;> rw [e]
    · exact .inl ⟨_, by simp, rfl⟩
    rcases needVec_cases vb s _ with ⟨_, e⟩ | ⟨_, e⟩ <;> rw [e]
    · exact .inl ⟨_, by simp, rfl⟩
    rcases sameLen_cases va vb s _ with ⟨_, e⟩ | ⟨hl, e⟩ <;> rw [e]
    · exact .inl ⟨_, by simp, rfl⟩
    · exact .inr ⟨_, .vxor ha hl, rfl⟩
  | vand vd va vb =>
    simp only [exec, execVand]
    rcases needVec_cases va s _ with ⟨_, e⟩ | ⟨ha, e⟩ <;> rw [e]
    · exact .inl ⟨_, by simp, rfl⟩
    rcases needVec_cases vb s _ with ⟨_, e⟩ | ⟨_, e⟩ <;> rw [e]
    · exact .inl ⟨_, by simp, rfl⟩
    rcases sameLen_cases va vb s _ with ⟨_, e⟩ | ⟨hl, e⟩ <;> rw [e]
    · exact .inl ⟨_, by simp, rfl⟩
    · exact .inr ⟨_, .vand ha hl, rfl⟩
  | vnot vd va =>
    simp only [exec, execVnot]
    rcases needVec_cases va s _ with ⟨_, e⟩ | ⟨ha, e⟩ <;> rw [e]
    · exact .inl ⟨_, by simp, rfl⟩
    · exact .inr ⟨_, .vnot ha, rfl⟩
  | enc vd va =>
    simp only [exec, execEnc]
    rcases needOrder_cases s _ with ⟨_, e⟩ | ⟨hr, e⟩ <;> rw [e]
    · exact .inl ⟨_, by simp, rfl⟩
    rcases needVec_cases va s _ with ⟨_, e⟩ | ⟨_, e⟩ <;> rw [e]
    · exact .inl ⟨_, by simp, rfl⟩
    rcases needLen_cases va _ s _ with ⟨_, e⟩ | ⟨hl, e⟩ <;> rw [e]
    · exact .inl ⟨_, by simp, rfl⟩
    · exact .inr ⟨_, .enc hr.1 hr.2 hl, rfl⟩
  | dec vd va =>
    simp only [exec, execDec]
    rcases needOrder_cases s _ with ⟨_, e⟩ | ⟨hr, e⟩ <;> rw [e]
    · exact .inl ⟨_, by simp, rfl⟩
    rcases needVec_cases va s _ with ⟨_, e⟩ | ⟨_, e⟩ <;> rw [e]
    · exact .inl ⟨_, by simp, rfl⟩
    rcases needLen_cases va _ s _ with ⟨_, e⟩ | ⟨hl, e⟩ <;> rw [e]
    · exact .inl ⟨_, by simp, rfl⟩
    · exact .inr ⟨_, .dec hr.1 hr.2 hl, rfl⟩
  | hdist va vb =>
    simp only [exec, execHdist]
    rcases needVec_cases va s _ with ⟨_, e⟩ | ⟨ha, e⟩ <;> rw [e]
    · exact .inl ⟨_, by simp, rfl⟩
    rcases needVec_cases vb s _ with ⟨_, e⟩ | ⟨_, e⟩ <;> rw [e]
    · exact .inl ⟨_, by simp, rfl⟩
    rcases sameLen_cases va vb s _ with ⟨_, e⟩ | ⟨hl, e⟩ <;> rw [e]
    · exact .inl ⟨_, by simp, rfl⟩
    · exact .inr ⟨_, .hdist ha hl, rfl⟩
  | srch vd va =>
    simp only [exec, execSrch]
    rcases needOrder_cases s _ with ⟨_, e⟩ | ⟨hr, e⟩ <;> rw [e]
    · exact .inl ⟨_, by simp, rfl⟩
    rcases needVec_cases va s _ with ⟨_, e⟩ | ⟨_, e⟩ <;> rw [e]
    · exact .inl ⟨_, by simp, rfl⟩
    rcases needLen_cases va _ s _ with ⟨_, e⟩ | ⟨hl, e⟩ <;> rw [e]
    · exact .inl ⟨_, by simp, rfl⟩
    · exact .inr ⟨_, .srch hr.1 hr.2 hl, rfl⟩
  | fsrch vd va =>
    simp only [exec, execFsrch]
    rcases needOrder_cases s _ with ⟨_, e⟩ | ⟨hr, e⟩ <;> rw [e]
    · exact .inl ⟨_, by simp, rfl⟩
    rcases needVec_cases va s _ with ⟨_, e⟩ | ⟨_, e⟩ <;> rw [e]
    · exact .inl ⟨_, by simp, rfl⟩
    rcases needLen_cases va _ s _ with ⟨_, e⟩ | ⟨hl, e⟩ <;> rw [e]
    · exact .inl ⟨_, by simp, rfl⟩
    · exact .inr ⟨_, .fsrch hr.1 hr.2 hl, rfl⟩

/-! ### The port -/

/-- The window is at BASE: an offset in it is found again from its bus address. -/
@[simp] theorem windowOffset_base_add {off : Nat} (h : off < 512) : windowOffset (Config.base + off) = some off := by
  simp [windowOffset, Config.windowSize, h]

/-- A write at the port leaves everything but OVR, ERR, ORDER, HDATA and the in-flight command as it was. -/
theorem portWrite_keeps (off width : Nat) (x : Word) (s : State) :
    (portWrite off width x s).v = s.v ∧ (portWrite off width x s).result0 = s.result0 ∧
    (portWrite off width x s).result1 = s.result1 ∧ (portWrite off width x s).errcode = s.errcode ∧
    (portWrite off width x s).inReset = s.inReset ∧ (portWrite off width x s).inputs = s.inputs ∧
    (portWrite off width x s).accesses = s.accesses := by
  unfold portWrite writeReg unlessBusy
  split
  · split <;> (try split) <;> simp
  · simp

/-- While BUSY = 1 a write at the port can change ERR and OVR only (rules R103, R44). -/
theorem portWrite_busy {s : State} (off width : Nat) (x : Word) (h : s.busy = true) :
    portWrite off width x s =
      { s with err := (portWrite off width x s).err, ovr := (portWrite off width x s).ovr } := by
  unfold portWrite writeReg unlessBusy
  split
  · split <;> rfl
  · rfl

/-- CMD stands at offset 0x010 only (rule R19). -/
theorem eq_of_regAt_cmd {off : Nat} (h : regAt off = .cmd) : off = 0x010 := by
  unfold regAt at h
  iterate 4 (rcases ite_eq_iff.mp h with ⟨_, h⟩ | ⟨_, h⟩; · exact Reg.noConfusion h)
  rcases ite_eq_iff.mp h with ⟨he, _⟩ | ⟨_, h⟩
  · exact he
  iterate 7 (rcases ite_eq_iff.mp h with ⟨_, h⟩ | ⟨_, h⟩; · exact Reg.noConfusion h)
  exact Reg.noConfusion h

/-- Only a served CMD write changes the in-flight command (rules R24, R44). -/
theorem portWrite_cmdl {off width : Nat} (x : Word) (s : State) (h : ¬ (off = 0x010 ∧ width = 4)) :
    (portWrite off width x s).cmdl = s.cmdl := by
  unfold portWrite
  split
  · next hs =>
    have hw : width = 4 ∧ off % 4 = 0 := by simpa [served] using hs
    have hr : regAt off ≠ .cmd := fun hc => h ⟨eq_of_regAt_cmd hc, hw.1⟩
    unfold writeReg unlessBusy
    split <;> first | rfl | (split <;> rfl) | exact absurd (by assumption) hr
  · rfl

/-- Bit 0 of a read of STATUS is BUSY (rule R25). -/
theorem portRead_status_busy (s : State) : (portRead 0x014 4 s).getLsbD 0 = s.busy := by
  change s.statusWord.getLsbD 0 = s.busy
  rw [State.statusWord, BitVec.getLsbD_append]
  cases s.busy <;> rfl

/-! ### What a host has seen of BUSY (rules R43, R107) -/

@[simp] theorem idleSeen_nil : idleSeen [] = false := rfl

@[simp] theorem idleSeen_read (off width : Nat) (x : Word) (earlier : List Access) :
    idleSeen (.read off width x :: earlier) = if off = 0x014 ∧ width = 4 then !x.getLsbD 0 else idleSeen earlier := rfl

@[simp] theorem idleSeen_write (off width : Nat) (x : Word) (earlier : List Access) :
    idleSeen (.write off width x :: earlier) = if off = 0x010 ∧ width = 4 then false else idleSeen earlier := rfl

/-- A served read keeps it true that a host which saw BUSY = 0 has no command in flight. -/
theorem idleSeenHolds_serveRead {s : State} (off width : Nat) (h : idleSeen s.accesses = true → s.cmdl = none) :
    idleSeen (s.serveRead off width).accesses = true → (s.serveRead off width).cmdl = none := by
  simp only [State.serveRead_eq, State.record_accesses, State.record_cmdl, idleSeen_read]
  split
  · next hs =>
    obtain ⟨rfl, rfl⟩ := hs
    rw [portRead_status_busy, Bool.not_eq_true']
    exact s.not_busy_iff.mp
  · exact h

/-- A served write keeps it true as well: a CMD write starts the wait anew, and no other issues a command. -/
theorem idleSeenHolds_serveWrite {s : State} (off width : Nat) (x : Word)
    (h : idleSeen s.accesses = true → s.cmdl = none) :
    idleSeen (s.serveWrite off width x).accesses = true → (s.serveWrite off width x).cmdl = none := by
  simp only [State.serveWrite_eq, State.record_accesses, State.record_cmdl, idleSeen_write]
  split
  · exact fun hf => absurd hf (by decide)
  · next hs => rw [portWrite_cmdl x s hs, (portWrite_keeps off width x s).2.2.2.2.2.2]; exact h

/-- With reset released every event of the platform has a next state. -/
theorem serveEvent_next (e : PortEvent) {s : State} (h : s.inReset = false) : ∃ t, serveEvent e s = .next t := by
  cases e <;> simp only [serveEvent, unlessReset, h, Bool.false_eq_true, if_false] <;> (try split) <;> exact ⟨_, rfl⟩

/-- The only way an event is not served: an access or a STATUS poll that reaches the window while reset is asserted
(rule R99). -/
theorem serveEvent_refused {e : PortEvent} {s : State} {why : Refusal} (h : serveEvent e s = .refused why) :
    why = .accessDuringReset ∧ s.inReset = true ∧
    (e = .pollIdle ∨ (∃ addr width off, e = .read addr width ∧ windowOffset addr = some off) ∨
      ∃ addr width x off, e = .write addr width x ∧ windowOffset addr = some off) := by
  cases e with
  | read addr width =>
    simp only [serveEvent, unlessReset] at h
    repeat' split at h
    all_goals cases h
    exact ⟨rfl, by assumption, .inr (.inl ⟨_, _, _, rfl, by assumption⟩)⟩
  | write addr width x =>
    simp only [serveEvent, unlessReset] at h
    repeat' split at h
    all_goals cases h
    exact ⟨rfl, by assumption, .inr (.inr ⟨_, _, _, _, rfl, by assumption⟩)⟩
  | pollIdle =>
    simp only [serveEvent, unlessReset] at h
    split at h
    all_goals cases h
    exact ⟨rfl, by assumption, .inl rfl⟩
  | resetAssert => cases h
  | resetRelease => cases h

/-- No event faults. -/
theorem serveEvent_no_fault (e : PortEvent) (s : State) (f : Fault) : serveEvent e s ≠ .fault f := by
  cases f

/-- While a command is in flight, an event that is no reset keeps every register but STATUS's ERR and OVR, and the inputs stay as
they were or get back the WAIT at their head (rules R103, R104). -/
theorem serveEvent_busy {e : PortEvent} {s t : State} (he : e ≠ .resetAssert) (hb : s.busy = true)
    (h : serveEvent e s = .next t) :
    (t.v = s.v ∧ t.order = s.order ∧ t.result0 = s.result0 ∧ t.result1 = s.result1 ∧ t.errcode = s.errcode ∧
      t.hdata = s.hdata ∧ t.cmdl = s.cmdl ∧ t.wait = s.wait ∧ t.issues = s.issues) ∧
    (t.inReset = s.inReset ∨ t.inReset = false) ∧ (t.inputs = s.inputs ∨ t.inputs = .pollIdle :: s.inputs) := by
  cases e with
  | read addr width =>
    simp only [serveEvent, unlessReset] at h
    repeat' split at h
    all_goals cases h
    all_goals simp
  | write addr width x =>
    simp only [serveEvent, unlessReset] at h
    repeat' split at h
    all_goals cases h
    · rw [State.serveWrite_eq, portWrite_busy _ _ _ hb]
      simp
    · simp
  | pollIdle =>
    simp only [serveEvent, unlessReset, hb, if_true] at h
    split at h
    all_goals cases h
    simp
  | resetAssert => exact absurd rfl he
  | resetRelease =>
    cases h
    simp

/-! ### The step -/

/-- The step when the completion of the in-flight command is due. -/
theorem step_due {s : State} {w : Word} (hc : s.cmdl = some w) (hw : s.wait = 0) : step s = runCommand w s := by
  simp [step, hc, hw]

/-- The step while a command is in flight and not yet due. -/
theorem step_waiting {s : State} {w : Word} (hc : s.cmdl = some w) (hw : s.wait ≠ 0) :
    step s = serveNext { s with wait := s.wait - 1 } := by
  simp [step, hc, hw]

/-- The step of a block with no command in flight. -/
theorem step_idle {s : State} (hc : s.cmdl = none) : step s = serveNext s := by
  simp [step, hc]

/-- A command word that decodes is performed. -/
theorem runCommand_ok {w : Word} {i : Instr} (s : State) (h : decode w = .ok i) : runCommand w s = exec i s := by
  simp [runCommand, h]

/-- A command word that does not decode raises IllegalCommand. -/
theorem runCommand_error {w : Word} {e : Illegal} (s : State) (h : decode w = .error e) :
    runCommand w s = raiseError .illegalCommand s := by
  simp [runCommand, h]

/-- `withFetchWord` makes the very next step perform the word. -/
theorem step_withFetchWord (s : State) (nbits w : Nat) :
    step (s.withFetchWord nbits w) = runCommand (BitVec.ofNat 32 (w % 2 ^ nbits)) (s.withFetchWord nbits w) :=
  step_due rfl rfl

end Sys2Proof.Machine
end

