-- ==== Sys2Proof/Laws/PerInstr.lean ====
section
/-! SUPPORT. Per-instruction families, about the command as syntax: where the opcode and the operands stand in its word. -/

namespace Sys2Proof.Laws

/-! ### OpcodeField: bits [3:0] of a command's word are its opcode (rules R46, R48) -/

/-- The OP field of the word of a command is its opcode. -/
def OpcodeField.Statement (i : Instr) : Prop := fieldOP (encode i) = i.opcode

theorem OpcodeField.load (vd : VNum) (len : Nat) : OpcodeField.Statement (.load vd len) := fieldOP_formatWord _ _ _ _ _
theorem OpcodeField.vxor (vd va vb : VNum) : OpcodeField.Statement (.vxor vd va vb) := fieldOP_formatWord _ _ _ _ _
theorem OpcodeField.vand (vd va vb : VNum) : OpcodeField.Statement (.vand vd va vb) := fieldOP_formatWord _ _ _ _ _
theorem OpcodeField.vnot (vd va : VNum) : OpcodeField.Statement (.vnot vd va) := fieldOP_formatWord _ _ _ _ _
theorem OpcodeField.enc (vd va : VNum) : OpcodeField.Statement (.enc vd va) := fieldOP_formatWord _ _ _ _ _
theorem OpcodeField.dec (vd va : VNum) : OpcodeField.Statement (.dec vd va) := fieldOP_formatWord _ _ _ _ _
theorem OpcodeField.hdist (va vb : VNum) : OpcodeField.Statement (.hdist va vb) := fieldOP_formatWord _ _ _ _ _
theorem OpcodeField.srch (vd va : VNum) : OpcodeField.Statement (.srch vd va) := fieldOP_formatWord _ _ _ _ _
theorem OpcodeField.fsrch (vd va : VNum) : OpcodeField.Statement (.fsrch vd va) := fieldOP_formatWord _ _ _ _ _

/-! ### OperandFields: the fields of a command's word are its operands, and 0 where its row has none (rules R46, R48) -/

/-- VD, VA and VB of the word of a command, and its IMM when the command is well formed. -/
def OperandFields.Statement (i : Instr) : Prop :=
  i.wellFormed = true →
    (fieldVD (encode i), fieldVA (encode i), fieldVB (encode i), fieldIMM (encode i)) =
      (match i with
        | .load vd len => (vd, 0, 0, len)
        | .vxor vd va vb => (vd, va, vb, 0)
        | .vand vd va vb => (vd, va, vb, 0)
        | .vnot vd va => (vd, va, 0, 0)
        | .enc vd va => (vd, va, 0, 0)
        | .dec vd va => (vd, va, 0, 0)
        | .hdist va vb => (0, va, vb, 0)
        | .srch vd va => (vd, va, 0, 0)
        | .fsrch vd va => (vd, va, 0, 0))

/-- The four fields of a formatted word. -/
theorem OperandFields.of_format (op : BitVec 4) (vd va vb : VNum) {imm : Nat} (h : imm < 2 ^ 16) :
    (fieldVD (formatWord op vd va vb imm), fieldVA (formatWord op vd va vb imm), fieldVB (formatWord op vd va vb imm),
      fieldIMM (formatWord op vd va vb imm)) = (vd, va, vb, imm) := by
  simp [fieldIMM_formatWord op vd va vb h]

theorem OperandFields.load (vd : VNum) (len : Nat) : OperandFields.Statement (.load vd len) := fun h =>
  OperandFields.of_format _ _ _ _ (of_decide_eq_true h)
theorem OperandFields.vxor (vd va vb : VNum) : OperandFields.Statement (.vxor vd va vb) := fun _ =>
  OperandFields.of_format _ _ _ _ (by decide)
theorem OperandFields.vand (vd va vb : VNum) : OperandFields.Statement (.vand vd va vb) := fun _ =>
  OperandFields.of_format _ _ _ _ (by decide)
theorem OperandFields.vnot (vd va : VNum) : OperandFields.Statement (.vnot vd va) := fun _ =>
  OperandFields.of_format _ _ _ _ (by decide)
theorem OperandFields.enc (vd va : VNum) : OperandFields.Statement (.enc vd va) := fun _ =>
  OperandFields.of_format _ _ _ _ (by decide)
theorem OperandFields.dec (vd va : VNum) : OperandFields.Statement (.dec vd va) := fun _ =>
  OperandFields.of_format _ _ _ _ (by decide)
theorem OperandFields.hdist (va vb : VNum) : OperandFields.Statement (.hdist va vb) := fun _ =>
  OperandFields.of_format _ _ _ _ (by decide)
theorem OperandFields.srch (vd va : VNum) : OperandFields.Statement (.srch vd va) := fun _ =>
  OperandFields.of_format _ _ _ _ (by decide)
theorem OperandFields.fsrch (vd va : VNum) : OperandFields.Statement (.fsrch vd va) := fun _ =>
  OperandFields.of_format _ _ _ _ (by decide)

end Sys2Proof.Laws
end

