-- ==== Sys2Proof/Tests/Slice0.lean ====
section
/-! SUPPORT. Tests of the model against spec/95_test_vectors.md, and for every obligation with hypotheses a witness that meets
them. The expected values are the spec's, not the model's. -/

namespace Sys2Proof.Tests

open Sys2Proof Sys2Proof.Machine

/-! ### Helpers -/

/-- A state after reset with an order and some vector registers loaded. -/
def loaded (order : BitVec 4) (regs : List (VNum × VReg)) : State :=
  regs.foldl (fun s x => s.setVreg x.1 x.2.len x.2.data) { State.reset with order := order }

/-- A state after reset with HDATA. -/
def staged (x : Data) : State :=
  { State.reset with hdata := Vector.ofFn fun j => dataWord x j }

/-- The next state, if there is one. -/
def nextOf : Answer → Option State
  | .next t => some t
  | .fault _ => none
  | .refused _ => none

/-- A register and the error code after a command. -/
def regAndCode (k : VNum) (a : Answer) : Option (VReg × BitVec 8) := (nextOf a).map fun t => (t.vreg k, t.errcode)

/-- RESULT0, RESULT1 and the error code after a command. -/
def resultsAndCode (a : Answer) : Option (Word × Word × BitVec 8) :=
  (nextOf a).map fun t => (t.result0, t.result1, t.errcode)

/-- What a search shows: the data of a register, RESULT0 and RESULT1. -/
def found (k : VNum) (a : Answer) : Option (Data × Word × Word) :=
  (nextOf a).map fun t => ((t.vreg k).data, t.result0, t.result1)

/-! ### Well-formedness: the one check refuses an ill-formed term (rule R52) -/

theorem test_load_length_too_big_is_ill_formed : (Instr.load 0 65536).wellFormed = false := by decide
theorem test_load_length_65535_is_well_formed : (Instr.load 0 65535).wellFormed = true := by decide

/-! ### Decoding: words of 95_test_vectors.md sections 1 to 3 -/

theorem test_decode_load : decode 0x00770071 = .ok (.load 7 0x77) ∧ decode 0xFFFF0001 = .ok (.load 0 65535) := by decide
theorem test_decode_vxor : decode 0x00002132 = .ok (.vxor 3 1 2) ∧ decode 0x00007772 = .ok (.vxor 7 7 7) := by decide
theorem test_decode_vand : decode 0x00002133 = .ok (.vand 3 1 2) ∧ decode 0x00001123 = .ok (.vand 2 1 1) := by decide
theorem test_decode_vnot : decode 0x00000124 = .ok (.vnot 2 1) := by decide
theorem test_decode_enc : decode 0x00000015 = .ok (.enc 1 0) := by decide
theorem test_decode_dec : decode 0x00000456 = .ok (.dec 5 4) := by decide
theorem test_decode_hdist : decode 0x00006507 = .ok (.hdist 5 6) := by decide
theorem test_decode_srch : decode 0x00000348 = .ok (.srch 4 3) := by decide
theorem test_decode_fsrch : decode 0x00000459 = .ok (.fsrch 5 4) := by decide

/-- The illegal words of section 2.8, and those of sections 2.1, 2.2 and 2.5. -/
theorem test_decode_illegal :
    decode 0x00000000 = .error .undefinedOpcode ∧ decode 0x0000000A = .error .undefinedOpcode ∧
    decode 0x0000000F = .error .undefinedOpcode ∧ decode 0x00000082 = .error .reservedBitSet ∧
    decode 0x00000802 = .error .reservedBitSet ∧ decode 0x00008002 = .error .reservedBitSet ∧
    decode 0x00010002 = .error .unusedFieldNonzero ∧ decode 0x00001005 = .error .unusedFieldNonzero ∧
    decode 0x00000017 = .error .unusedFieldNonzero ∧ decode 0x00040101 = .error .unusedFieldNonzero ∧
    decode 0x00003124 = .error .unusedFieldNonzero ∧ decode 0x00001117 = .error .unusedFieldNonzero := by decide

/-- The words of program P3 from their assembler lines. -/
theorem test_encode_program_p3 :
    encode (.load 0 8) = 0x00080001 ∧ encode (.enc 1 0) = 0x00000015 ∧ encode (.vnot 2 1) = 0x00000124 ∧
    encode (.load 3 128) = 0x00800031 ∧ encode (.vxor 4 2 3) = 0x00003242 ∧ encode (.fsrch 5 4) = 0x00000459 ∧
    encode (.srch 6 4) = 0x00000468 ∧ encode (.hdist 5 6) = 0x00006507 ∧ encode (.dec 7 5) = 0x00000576 := by decide

/-- The four bytes of a word, lowest address first, and the numbering of the opcode table. -/
theorem test_decode_bytes :
    decodeBytes [0x32, 0x21, 0x00, 0x00] = .ok (.vxor 3 1 2) ∧ decodeBytes [0x32, 0x21] = .error .notOneWord ∧
    decodeTableWord 32 0x00040001 = some (.load 0 4) ∧ decodeTableWord 32 0 = none := by decide

theorem test_asm_line : (Instr.load 0 4).asmLine = "LOAD v0, #4" ∧ (Instr.hdist 1 2).asmLine = "HDIST v1, v2" := by decide

/-! ### Commands (section 2) -/

theorem test_load_ok : regAndCode 0 (exec (.load 0 4) (staged 0xA)) = some (⟨4, 0xA⟩, 0) := by decide
theorem test_load_errors :
    (nextOf (exec (.load 0 3) (staged 0xA))).map State.statusWord = some 0x00000302 ∧
    regAndCode 0 (exec (.load 0 0) (staged 0)) = some (⟨0, 0⟩, 3) ∧
    regAndCode 0 (exec (.load 0 129) (staged 0)) = some (⟨0, 0⟩, 7) ∧
    regAndCode 1 (exec (.load 1 127) (staged (BitVec.allOnes 128))) = some (⟨0, 0⟩, 3) := by decide

theorem test_vxor : regAndCode 3 (exec (.vxor 3 1 2) (loaded 0 [(1, ⟨4, 0xC⟩), (2, ⟨4, 0xA⟩)])) = some (⟨4, 0x6⟩, 0) := by decide
theorem test_vxor_errors :
    regAndCode 3 (exec (.vxor 3 1 2) (loaded 0 [(1, ⟨4, 0xC⟩), (2, ⟨8, 0xC⟩)])) = some (⟨0, 0⟩, 2) ∧
    regAndCode 3 (exec (.vxor 3 1 2) (loaded 0 [(2, ⟨8, 0xA⟩)])) = some (⟨0, 0⟩, 8) := by decide

theorem test_vand : regAndCode 3 (exec (.vand 3 1 2) (loaded 0 [(1, ⟨4, 0xC⟩), (2, ⟨4, 0xA⟩)])) = some (⟨4, 0x8⟩, 0) := by decide
theorem test_vand_empty : regAndCode 3 (exec (.vand 3 1 2) (loaded 0 [(1, ⟨4, 0xC⟩)])) = some (⟨0, 0⟩, 8) := by decide

theorem test_vnot_in_place : regAndCode 1 (exec (.vnot 1 1) (loaded 0 [(1, ⟨4, 0xC⟩)])) = some (⟨4, 0x3⟩, 0) := by decide
theorem test_vnot_full_width :
    regAndCode 2 (exec (.vnot 2 1) (loaded 0 [(1, ⟨128, 0⟩)])) = some (⟨128, BitVec.allOnes 128⟩, 0) := by decide +kernel

theorem test_enc_order_7 :
    regAndCode 1 (exec (.enc 1 0) (loaded 7 [(0, ⟨8, 0x5A⟩)])) =
      some (⟨128, 0x33CCCC3333CCCC33CC3333CCCC3333CC⟩, 0) := by decide +kernel
theorem test_enc_errors :
    regAndCode 1 (exec (.enc 1 0) (loaded 8 [(0, ⟨4, 0x8⟩)])) = some (⟨0, 0⟩, 5) ∧
    regAndCode 1 (exec (.enc 1 0) (loaded 0 [])) = some (⟨0, 0⟩, 5) ∧
    regAndCode 1 (exec (.enc 1 0) (loaded 3 [])) = some (⟨0, 0⟩, 8) ∧
    regAndCode 1 (exec (.enc 1 0) (loaded 3 [(0, ⟨3, 0x5⟩)])) = some (⟨0, 0⟩, 2) := by decide

theorem test_dec :
    regAndCode 2 (exec (.dec 2 1) (loaded 3 [(1, ⟨8, 0x33⟩)])) = some (⟨4, 0xA⟩, 0) ∧
    regAndCode 2 (exec (.dec 2 1) (loaded 3 [(1, ⟨8, 0xFE⟩)])) = some (⟨4, 0x7⟩, 0) ∧
    regAndCode 2 (exec (.dec 2 1) (loaded 1 [(1, ⟨2, 0x1⟩)])) = some (⟨2, 0x3⟩, 0) := by decide
theorem test_dec_length_mismatch : regAndCode 2 (exec (.dec 2 1) (loaded 3 [(1, ⟨4, 0xA⟩)])) = some (⟨0, 0⟩, 2) := by decide

theorem test_hdist :
    resultsAndCode (exec (.hdist 1 2) (loaded 0 [(1, ⟨8, 0x33⟩), (2, ⟨8, 0x32⟩)])) = some (1, 0, 0) ∧
    resultsAndCode (exec (.hdist 1 2) (loaded 0 [(1, ⟨128, 0⟩), (2, ⟨128, BitVec.allOnes 128⟩)])) = some (128, 0, 0) := by
  decide +kernel

theorem test_srch :
    found 2 (exec (.srch 2 1) (loaded 3 [(1, ⟨8, 0x32⟩)])) = some (0x33, 10, 1) ∧
    found 2 (exec (.srch 2 1) (loaded 3 [(1, ⟨8, 0xFE⟩)])) = some (0xFF, 8, 1) ∧
    found 2 (exec (.srch 2 1) (loaded 3 [(1, ⟨8, 0x03⟩)])) = some (0x00, 0, 2) := by decide +kernel
theorem test_srch_tie : found 2 (exec (.srch 2 1) (loaded 2 [(1, ⟨4, 0x7⟩)])) = some (0xF, 4, 1) := by decide +kernel

theorem test_fsrch :
    found 2 (exec (.fsrch 2 1) (loaded 3 [(1, ⟨8, 0x32⟩)])) = some (0x33, 10, 0xFFFFFFFA) ∧
    found 2 (exec (.fsrch 2 1) (loaded 3 [(1, ⟨8, 0x01⟩)])) = some (0x00, 0, 6) ∧
    found 2 (exec (.fsrch 2 1) (loaded 2 [(1, ⟨4, 0x7⟩)])) = some (0xF, 4, 0xFFFFFFFE) := by decide +kernel

/-- Program P3, step 9: the peak of an order-7 word with 12 flips, at j = 0x5A on the complement branch. -/
theorem test_transform_order_7 : transform 7 0xCC3333C3CC33333C33CCCC3333CCCC3C 0x5A = -104 := by decide +kernel

/-! ### The registers and the step -/

theorem test_param_and_dims :
    paramWord = 0x00800807 ∧ (loaded 3 []).dimsWord = 0x00080004 ∧ (loaded 7 []).dimsWord = 0x00800008 ∧
    (loaded 8 []).dimsWord = 0 := by decide

/-- The status sequence of section 2.8, items 1 to 3. -/
theorem test_status_sequence :
    (nextOf (exec (.enc 1 0) State.reset)).map State.statusWord = some 0x00000502 ∧
    (nextOf (exec (.load 0 1) { State.reset with err := true, errcode := 5 })).map State.statusWord = some 0x00000002 ∧
    (clearStatus 0x00000002 { State.reset with err := true }).statusWord = 0 := by decide

/-- A word of the opcode table is run by the very next step. -/
theorem test_step_runs_fetch_word :
    (nextOf (step ((loaded 0 [(1, ⟨4, 0xC⟩)]).withFetchWord 32 0x00000124))).map (State.vreg · 2) = some ⟨4, 0x3⟩ := by
  decide

/-- The length word of VREG0 after program line `LOAD v0, #8` with 200 (section 1, W7), and a byte of its window. -/
theorem test_vector_window :
    portRead 0x110 4 (loaded 0 [(0, ⟨8, 200⟩)]) = 0x00000008 ∧ portRead 0x100 4 (loaded 0 [(0, ⟨8, 200⟩)]) = 0x000000C8 ∧
    windowByte (loaded 0 [(0, ⟨8, 200⟩)]) 0x100 = 0xC8 ∧ windowByte (loaded 0 [(0, ⟨8, 200⟩)]) 0x101 = 0 := by decide

/-- The accesses of LDV: four HDATA writes, low word first, then ISSUE and WAIT (rule R53). -/
theorem test_ldv_events :
    (HostLine.ldv 0 128 (1#128 <<< 127)).events =
      [.write (Config.base + 0x020) 4 0, .write (Config.base + 0x024) 4 0, .write (Config.base + 0x028) 4 0,
       .write (Config.base + 0x02C) 4 0x80000000, .write (Config.base + 0x010) 4 0x00800001, .pollIdle] := rfl

/-- A program has not ended after a lone ISSUE with no poll, nor when its last STATUS read returned BUSY = 1, nor when a CMD
write is later than it; a later read of a result does not matter, as in program P4 (rule R107). -/
theorem test_program_end :
    (State.reset.withProgram []).ended = false ∧
    ({ State.reset with accesses := [.write 0x010 4 0x128] } : State).ended = false ∧
    ({ State.reset with accesses := [.read 0x014 4 1, .write 0x010 4 0x128] } : State).ended = false ∧
    ({ State.reset with accesses := [.write 0x010 4 0x134, .read 0x014 4 0] } : State).ended = false ∧
    ({ State.reset with accesses := [.read 0x018 4 0, .read 0x014 4 0, .write 0x010 4 0x1407] } : State).ended = true ∧
    ({ State.reset with accesses := [.read 0x014 4 0], inputs := [.pollIdle] } : State).ended = false := by decide

/-! ### Witnesses: for every obligation with hypotheses, a state and operands that meet those of each clause -/

/-- V1 = (8, 0x33), V2 = (8, 0x32), V0 = (4, 0xA), order 3: every command succeeds on it. -/
def ready : State := loaded 3 [(0, ⟨4, 0xA⟩), (1, ⟨8, 0x33⟩), (2, ⟨8, 0x32⟩)]

/-- A command in flight, due now or later, with inputs waiting at the port. -/
def inFlight (w : Word) (wait : Nat) (inputs : List PortEvent) : State :=
  { ready with cmdl := some w, wait := wait, inputs := inputs }

theorem witness_OpcodeMapDecodes :
    (0 : Word).toNat % 16 = 0 ∧ 10 ≤ (0xA : Word).toNat % 16 ∧ 10 ≤ (0xFFFFFFFF : Word).toNat % 16 ∧
    (0xFFFF007 <<< 4 ||| 1 : Word) &&& 0x0000FF8F = 0x00000001 := by decide

theorem witness_DecodeIsTotalByRows :
    (∃ row ∈ opRows, (0x00002132 : Word) &&& row.mask = row.pattern) ∧
    ∀ row ∈ opRows, (0 : Word) &&& row.mask ≠ row.pattern := by decide

theorem witness_DecodeEncodeRoundTrip :
    (Instr.load 7 65535).wellFormed = true ∧ (Instr.load 0 0).wellFormed = true ∧ (Instr.fsrch 7 7).wellFormed = true := by
  decide

theorem witness_EachCommandHasOneWord : decode 0xFFFF0071 = .ok (.load 7 65535) := by decide

theorem witness_IllegalWordRaisesIllegalCommand :
    decode 0 = .error .undefinedOpcode ∧ State.reset.busy = false ∧ (inFlight 0 0 []).cmdl = some 0 ∧
    (inFlight 0 0 []).wait = 0 ∧
    (0x80 : Word).getLsbD 7 = true ∧ (0x800 : Word).getLsbD 11 = true ∧ (0x8000 : Word).getLsbD 15 = true ∧
    (0x101 : Word).toNat / 2 ^ 8 % 2 ^ 8 ≠ 0 ∧ (0x10002 : Word).toNat / 2 ^ 16 ≠ 0 ∧ (0x1005 : Word).toNat / 2 ^ 12 ≠ 0 ∧
    (0x17 : Word).toNat / 2 ^ 4 % 8 ≠ 0 ∧ (0x10007 : Word).toNat / 2 ^ 16 ≠ 0 := by decide

theorem witness_StepRunsDecodedCommand :
    ((inFlight 0x124 0 []).cmdl = some 0x124 ∧ (inFlight 0x124 0 []).wait = 0 ∧ decode 0x124 = .ok (.vnot 2 1)) ∧
    (State.reset.cmdl = none ∧ State.reset.inputs = []) ∧
    ((inFlight 0x124 1 [.pollIdle]).wait ≠ 0 ∧ (inFlight 0x124 1 [.pollIdle]).inputs = .pollIdle :: []) := by decide

/-- A poll and the window's first and last byte, while reset is asserted. -/
theorem witness_StepStopsOnlyDuringReset :
    step { State.reset with inReset := true, inputs := [.pollIdle] } = .refused .accessDuringReset ∧
    State.reset.cmdl = none ∧ windowOffset (Config.base + 0) = some 0 ∧ windowOffset (Config.base + 511) = some 511 :=
  ⟨rfl, rfl, windowOffset_base_add (by decide), windowOffset_base_add (by decide)⟩

theorem witness_LoadFollowsRule :
    65535 < 65536 ∧ 128 < 129 ∧ 3 < natlen (staged 0xA).hdataValue ∧ natlen (staged 0xA).hdataValue ≤ 4 ∧
    natlen (staged (BitVec.allOnes 128)).hdataValue ≤ 128 := by decide +kernel

/-- The orders and the indices of the statements about the code, the sign matrix and the searches, at the ends of their ranges. -/
theorem witness_orders :
    (1 ≤ 1 ∧ 1 ≤ 7 ∧ 0 < 1 ∧ 2 ^ 1 - 1 < 2 ^ 1) ∧ (1 ≤ 7 ∧ 7 ≤ 7 ∧ 6 < 7 ∧ 127 < 2 ^ 7 ∧ 255 < 2 ^ (7 + 1)) ∧
    (2 ≤ 2 ∧ 2 ≤ 7 ∧ 1 < 2 ^ (2 - 1)) := by decide

/-- Of VXOR, VAND and HDIST: an empty operand, two lengths, one length. -/
theorem witness_two_operands :
    (ready.vreg 3).len = 0 ∧ ((ready.vreg 0).len ≠ 0 ∧ (ready.vreg 1).len ≠ 0 ∧ (ready.vreg 0).len ≠ (ready.vreg 1).len) ∧
    ((ready.vreg 1).len ≠ 0 ∧ (ready.vreg 1).len = (ready.vreg 2).len) := by decide

theorem witness_VxorFollowsRule : ∃ t, exec (.vxor 7 1 2) ready = .next t ∧ t.errcode = 0 :=
  ⟨_, execVxor_ok (by decide) (by decide), rfl⟩
theorem witness_VandFollowsRule : ∃ t, exec (.vand 7 1 2) ready = .next t ∧ t.errcode = 0 :=
  ⟨_, execVand_ok (by decide) (by decide), rfl⟩
theorem witness_HdistFollowsRule : ∃ t, exec (.hdist 1 2) ready = .next t ∧ t.errcode = 0 :=
  ⟨_, execHdist_ok (by decide) (by decide), rfl⟩

theorem witness_VnotFollowsRule :
    (ready.vreg 3).len = 0 ∧ (ready.vreg 1).len ≠ 0 ∧ RegWf (ready.vreg 1) := by decide

theorem witness_PseudoCommandEffects :
    (ready.vreg 1).len ≠ 0 ∧ RegWf (ready.vreg 1) ∧ RegWf (ready.vreg 2) ∧ (ready.vreg 1).len = (ready.vreg 2).len := by decide

theorem witness_BitPrimitives : (1#128 <<< 127 : Data) ≠ 0 ∧ (0x3F : Data).toNat < 2 ^ 6 ∧ (0 : Data).toNat < 2 ^ 128 := by
  decide

theorem witness_EncodingFunctionBits : 127 < 2 ^ 7 ∧ 2 ^ 7 ≤ 128 := by decide

/-- Of ENC, DEC, SRCH and FSRCH: an invalid order, and at order 3 an empty operand and operands of both lengths. -/
theorem witness_code_commands :
    ¬ (1 ≤ State.reset.order.toNat ∧ State.reset.order.toNat ≤ 7) ∧ ¬ (loaded 8 []).order.toNat ≤ 7 ∧
    1 ≤ ready.order.toNat ∧ ready.order.toNat ≤ 7 ∧ (ready.vreg 3).len = 0 ∧
    (ready.vreg 0).len = ready.order.toNat + 1 ∧ (ready.vreg 0).len ≠ 2 ^ ready.order.toNat ∧
    (ready.vreg 1).len = 2 ^ ready.order.toNat ∧ (ready.vreg 1).len ≠ ready.order.toNat + 1 := by decide

theorem witness_EncFollowsRule : ∃ t, exec (.enc 1 0) ready = .next t ∧ t.errcode = 0 :=
  ⟨_, execEnc_ok (by decide) (by decide), rfl⟩
theorem witness_DecFollowsRule : ∃ t, exec (.dec 5 1) ready = .next t ∧ t.errcode = 0 :=
  ⟨_, execDec_ok (by decide) (by decide), rfl⟩
theorem witness_SrchFollowsRule : ∃ t, exec (.srch 5 1) ready = .next t ∧ t.errcode = 0 :=
  ⟨_, execSrch_ok (by decide) (by decide), rfl⟩
theorem witness_FsrchFollowsRule : ∃ t, exec (.fsrch 5 1) ready = .next t ∧ t.errcode = 0 :=
  ⟨_, execFsrch_ok (by decide) (by decide), rfl⟩

/-- The inner clauses of SRCH and FSRCH: codeword inputs with either top bit, and a 2-bit input at order 1. -/
theorem witness_search_inputs :
    (0x33 : Data) = encf 3 10 ∧ (10 : Data).toNat < 2 ^ (3 + 1) ∧ (10 : Data).getLsbD 3 = true ∧
    (0x5A : Data) = encf 3 5 ∧ (5 : Data).getLsbD 3 = false ∧
    (loaded 1 [(1, ⟨2, 1⟩)]).order.toNat = 1 ∧ ((loaded 1 [(1, ⟨2, 1⟩)]).vreg 1).data.toNat < 4 := by decide

theorem witness_DecodingFunctionInverts : (0xFF : Data).toNat < 2 ^ (7 + 1) ∧ (0 : Data).toNat < 2 ^ (1 + 1) := by decide

theorem witness_DecIgnoresOtherPositions :
    (0x73 : Data).getLsbD 0 = (0x33 : Data).getLsbD 0 ∧
    ∀ i < 3, (0x73 : Data).getLsbD (2 ^ i) = (0x33 : Data).getLsbD (2 ^ i) := by decide

theorem witness_EncThenDecRestoresMessage :
    1 ≤ ready.order.toNat ∧ ready.order.toNat ≤ 7 ∧ RegWf (ready.vreg 0) ∧ (ready.vreg 0).len = ready.order.toNat + 1 := by
  decide

theorem witness_WeightsAndMinimumDistance :
    (0 : Data).toNat < 2 ^ (7 + 1) ∧ (0xFF : Data).toNat < 2 ^ (7 + 1) ∧ (0 : Data) ≠ 0xFF := by decide

theorem witness_HammingDistanceLaws : RegWf ⟨128, BitVec.allOnes 128⟩ ∧ RegWf ⟨8, 0x33⟩ ∧ RegWf ⟨0, 0⟩ := by decide

theorem witness_ScoreAndImpliedDistance : 0 ≤ score 3 0x33 0x33 ∧ score 3 0xCC 0x33 < 0 := by decide +kernel

theorem witness_SearchCorrectsErrors :
    (10 : Data).toNat < 2 ^ (3 + 1) ∧ RegWf ⟨2 ^ 3, 0x80⟩ ∧ popcount 0x80 < 2 ^ (3 - 2) ∧ popcount 0 < 2 ^ (2 - 2) := by
  decide +kernel

theorem witness_PeakPicksMessage : 0 < transform 3 0x00 0 ∧ transform 3 0x33 2 < 0 := by decide

theorem witness_FastSearchAgreesWithSearch :
    1 ≤ ready.order.toNat ∧ ready.order.toNat ≤ 7 ∧ (ready.vreg 2).len = 2 ^ ready.order.toNat := by decide

theorem witness_ErrorPriority : decode 0xF = .error .undefinedOpcode := by decide

/-- Of FailureHasNoOtherEffect, CommandsReadOnlyTheirInputs, ResultRegisters and CommandsKeepVectorsWellFormed: a command that
fails and one that succeeds. -/
theorem witness_failure_and_success :
    (∃ t, exec (.enc 1 0) State.reset = .next t ∧ t.errcode ≠ 0) ∧ ∃ t, exec (.srch 5 2) ready = .next t ∧ t.errcode = 0 :=
  ⟨⟨_, rfl, by decide⟩, ⟨_, execSrch_ok (by decide) (by decide), rfl⟩⟩

/-- Two states that agree on the inputs of every command with sources V1 and V2, and on little else. -/
theorem witness_CommandsReadOnlyTheirInputs :
    let other : State := { ready with
      v := (ready.v.set 0 ⟨128, BitVec.allOnes 128⟩).set 5 ⟨1, 1⟩, result0 := 7, result1 := 7, ovr := true, errcode := 8 }
    ready.hdata = other.hdata ∧ ready.vreg 1 = other.vreg 1 ∧ ready.vreg 2 = other.vreg 2 ∧ ready.order = other.order ∧
    ready.vreg 0 ≠ other.vreg 0 := by decide

theorem witness_CommandsKeepVectorsWellFormed : VregsWf State.reset ∧ VregsWf ready := by decide

/-- Every group of CommandFrames answers a next state, and there is another register than V[VD]. -/
theorem witness_CommandFrames :
    (∃ t, exec (.load 7 4) ready = .next t) ∧ (∃ t, exec (.fsrch 7 1) ready = .next t) ∧
    (∃ t, exec (.hdist 1 2) ready = .next t) ∧ (0 : VNum) ≠ 7 :=
  ⟨⟨_, execLoad_ok (by decide) (by decide)⟩, ⟨_, execFsrch_ok (by decide) (by decide)⟩,
    ⟨_, execHdist_ok (by decide) (by decide)⟩, by decide⟩

/-- The premises on BUSY of OrderAndDimsRegisters, CmdWriteIssues, HdataRegisters and BusyWritesAreIgnored. -/
theorem witness_busy : State.reset.busy = false ∧ (inFlight 0x128 5 []).busy = true ∧ 0x008 % 4 = 0 ∧ 0x1FC < 512 := by decide

theorem witness_HdataRegisters : ∀ vd n, Instr.vnot 2 1 ≠ .load vd n := by simp

theorem witness_VectorWindows : (ready.vreg 1).len ≤ 128 ∧ ((loaded 0 [(7, ⟨128, 0⟩)]).vreg 7).len ≤ 128 := by decide

/-- A narrow access, a misaligned one, and the reserved and read-only offsets at the ends of their ranges. -/
theorem witness_UnservedReservedReadOnly :
    (1 ≠ 4 ∧ 0x002 % 4 ≠ 0) ∧
    (∀ off ∈ [0x030, 0x0FC, 0x114, 0x1FC], off < 512 ∧ off % 4 = 0 ∧
      (0x030 ≤ off ∧ off < 0x100 ∨ 0x100 ≤ off ∧ 0x14 ≤ off % 0x20)) ∧
    ∀ off ∈ [0x110, 0x1F0], 0x100 ≤ off ∧ off % 0x20 = 0x10 := by decide

theorem witness_ReadsHaveNoSideEffect :
    ∃ t, step { ready with inputs := [.read Config.base 4] } = .next t :=
  serveEvent_next (.read Config.base 4) (s := { ready with inputs := [] }) rfl

/-- The window's ends and the first addresses outside it. -/
theorem witness_WindowAtBase :
    (0 < 512 ∧ 511 < 512 ∧ State.reset.inReset = false) ∧ Config.base + 512 ≤ Config.base + 512 ∧
    (Config.base = 0 ∨ Config.base - 1 < Config.base) := by
  refine ⟨by decide, Nat.le_refl _, ?_⟩
  omega

theorem witness_InFlightStateIsFixed :
    (inFlight 0x128 1 [.pollIdle]).cmdl = some 0x128 ∧ (inFlight 0x128 1 [.pollIdle]).wait ≠ 0 ∧
    (inFlight 0x128 1 [.pollIdle]).inputs.head? ≠ some .resetAssert ∧
    ∃ t, step (inFlight 0x128 1 [.pollIdle]) = .next t :=
  ⟨rfl, by decide, by decide, _, rfl⟩

theorem witness_CommandCompletesWithItsInputs :
    (inFlight 0x128 3 [.pollIdle]).cmdl = some 0x128 ∧ decode 0x128 = .ok (.srch 2 1) ∧
    (inFlight 0x128 3 [.pollIdle]).inReset = false ∧ NoReset (inFlight 0x128 3 [.pollIdle]) := by decide

theorem witness_WaitEndsWhenIdle :
    State.reset.inReset = false ∧ State.reset.cmdl = none ∧ (inFlight 0x128 1 []).inReset = false ∧
    (inFlight 0x128 1 []).cmdl ≠ none := by decide

/-- A state in which a program has ended, and that meets the invariant. -/
def afterWait : State :=
  { ready with accesses := [.read 0x018 4 0, .read 0x014 4 0x600, .write 0x010 4 0] }

theorem witness_program_end : afterWait.ended = true ∧ afterWait.Inv ∧
    afterWait.accesses = [.read 0x018 4 0] ++ .read 0x014 4 0x600 :: [.write 0x010 4 0] := by decide

theorem witness_ResetAbandonsCommand : ({ State.reset with inReset := true } : State).inReset = true := rfl

theorem witness_StepKeepsInvariant :
    State.Inv (inFlight 0x124 0 []) ∧ ∃ t, step (inFlight 0x124 0 []) = .next t :=
  ⟨by decide, _, rfl⟩

end Sys2Proof.Tests
end

section
/-! PROOFS. The registers at the port and reset, what a command can leave, and the statements of 10_state.md about them. -/

namespace Sys2Proof.Machine

/-! ### Reads and writes at the port, register by register (rules R19 to R28) -/

/-- A 32-bit read at a multiple of 4 gives the register there. -/
theorem portRead_aligned {off : Nat} (h : off % 4 = 0) (s : State) : portRead off 4 s = readReg (regAt off) s := by
  simp [portRead, served, h]

/-- A 32-bit write at a multiple of 4 writes the register there. -/
theorem portWrite_aligned {off : Nat} (h : off % 4 = 0) (x : Word) (s : State) :
    portWrite off 4 x s = writeReg (regAt off) x s := by
  simp [portWrite, served, h]

@[simp] theorem portRead_id (s : State) : portRead 0x000 4 s = 0x524D4331 := rfl
@[simp] theorem portRead_param (s : State) : portRead 0x004 4 s = 0x00800807 := rfl
@[simp] theorem portRead_order (s : State) : portRead 0x008 4 s = s.order.setWidth 32 := rfl
@[simp] theorem portRead_dims (s : State) : portRead 0x00C 4 s = s.dimsWord := rfl
@[simp] theorem portRead_cmd (s : State) : portRead 0x010 4 s = 0 := rfl
@[simp] theorem portRead_result0 (s : State) : portRead 0x018 4 s = s.result0 := rfl
@[simp] theorem portRead_result1 (s : State) : portRead 0x01C 4 s = s.result1 := rfl

@[simp] theorem portWrite_id (x : Word) (s : State) : portWrite 0x000 4 x s = s := rfl
@[simp] theorem portWrite_param (x : Word) (s : State) : portWrite 0x004 4 x s = s := rfl
@[simp] theorem portWrite_dims (x : Word) (s : State) : portWrite 0x00C 4 x s = s := rfl
@[simp] theorem portWrite_result0 (x : Word) (s : State) : portWrite 0x018 4 x s = s := rfl
@[simp] theorem portWrite_result1 (x : Word) (s : State) : portWrite 0x01C 4 x s = s := rfl

theorem portWrite_order (x : Word) (s : State) :
    portWrite 0x008 4 x s = unlessBusy s { s with order := x.setWidth 4 } := rfl
theorem portWrite_cmd (x : Word) (s : State) : portWrite 0x010 4 x s = unlessBusy s (issue x s) := rfl

/-- HDATAj stands at 0x020 + 4j (rule R19). -/
theorem regAt_hdata (j : Fin 4) : regAt (0x020 + 4 * j.val) = .hdata j := by
  revert j
  decide

@[simp] theorem portRead_hdata (j : Fin 4) (s : State) : portRead (0x020 + 4 * j.val) 4 s = s.hdata[j] := by
  rw [portRead_aligned (by omega), regAt_hdata]
  rfl

theorem portWrite_hdata (j : Fin 4) (x : Word) (s : State) :
    portWrite (0x020 + 4 * j.val) 4 x s = unlessBusy s { s with hdata := s.hdata.set j x } := by
  rw [portWrite_aligned (by omega), regAt_hdata]
  rfl

/-- While BUSY = 0 a write of CMD, ORDER or HDATA has its effect (rule R103). -/
theorem unlessBusy_idle {s : State} (effect : State) (h : s.busy = false) : unlessBusy s effect = effect := by
  simp [unlessBusy, h]

/-- While BUSY = 1 a write of CMD, ORDER or HDATA only sets OVR (rule R103). -/
theorem unlessBusy_busy {s : State} (effect : State) (h : s.busy = true) :
    unlessBusy s effect = { s with ovr := true } := by
  simp [unlessBusy, h]

/-! ### ID, PARAM, CMD, ORDER and DIMS -/

/-- Settles O42: each clause is the port's answer at one offset. -/
theorem idAndParamAreConstant : Obligations.IdAndParamAreConstant := fun s x =>
  ⟨portRead_id s, portRead_param s, rfl, portWrite_id x s, portWrite_param x s⟩

/-- Settles O44: the two cases of `unlessBusy` at CMD. -/
theorem cmdWriteIssues : Obligations.CmdWriteIssues := by
  intro s x
  refine ⟨fun idle => ⟨Config.latency s.issues x s.order s.hdataValue s.v, s.issues + 1, ?_, ?_⟩, fun busy => ?_,
    portRead_cmd s⟩
  · exact unlessBusy_idle (issue x s) idle
  · rw [portWrite_cmd, unlessBusy_idle _ idle, State.busy_issue]
  · exact unlessBusy_busy (issue x s) busy

/-- The dimensions that DIMS packs, for the orders 1 to 7 (rule R23). -/
theorem toNat_dims_of_le {r : Nat} (h : r ≤ 7) :
    (BitVec.ofNat 16 (2 ^ r) ++ 0#8 ++ BitVec.ofNat 8 (r + 1)).toNat = 2 ^ r * 2 ^ 16 + (r + 1) := by
  interval_cases r <;> rfl

/-- DIMS as a number (rule R23). -/
theorem toNat_dimsWord (s : State) : s.dimsWord.toNat =
    if 1 ≤ s.order.toNat ∧ s.order.toNat ≤ 7 then 2 ^ s.order.toNat * 2 ^ 16 + (s.order.toNat + 1) else 0 := by
  simp only [State.dimsWord, orderValid_iff]
  split
  · next valid => exact toNat_dims_of_le valid.2
  · rfl

/-- With an invalid order every code command raises InvalidOrder before any other check (rules R22, R62). -/
theorem exec_code_command_of_invalid_order {s : State} (h : ¬ (1 ≤ s.order.toNat ∧ s.order.toNat ≤ 7)) (vd va : VNum)
    {i : Instr} (hi : i ∈ [Instr.enc vd va, .dec vd va, .srch vd va, .fsrch vd va]) :
    exec i s = raiseError .invalidOrder s := by
  simp only [List.mem_cons, List.not_mem_nil, or_false] at hi
  obtain rfl | rfl | rfl | rfl := hi <;>
    simp only [exec, execEnc, execDec, execSrch, execFsrch, needOrder_invalid _ h]

/-- Settles O43, from the port's equations for ORDER and DIMS and the order check that comes first in a code command. -/
theorem orderAndDimsRegisters : Obligations.OrderAndDimsRegisters := by
  intro s x
  refine ⟨fun idle => ⟨?_, ?_⟩, fun busy => ?_, ?_, ?_, ?_, portWrite_dims x s⟩
  · rw [portWrite_order, unlessBusy_idle _ idle, BitVec.setWidth_eq_extractLsb' (by decide)]
  · rw [portWrite_order, unlessBusy_idle _ idle, portRead_order, BitVec.toNat_setWidth_of_le (by decide),
      BitVec.toNat_setWidth]
  · rw [portWrite_order, unlessBusy_busy _ busy]
  · refine BitVec.eq_of_toNat_eq ?_
    rw [portRead_order, BitVec.toNat_setWidth_of_le (by decide), BitVec.toNat_append]
    simp
  · exact fun invalid vd va i hi => exec_code_command_of_invalid_order invalid vd va hi
  · rw [portRead_dims, toNat_dimsWord]

/-- Settles O56: the vector file is 8 copies of the empty vector, and the rest is the reset state as written. -/
theorem resetValues : Obligations.ResetValues := by
  refine ⟨fun k => ?_, rfl, rfl, rfl, rfl, rfl, rfl, rfl, rfl, fun j => ?_, rfl, portRead_id _, portRead_param _, rfl⟩
  · simp [State.vreg, State.reset]
  · simp [State.reset]

/-! ### What a command can leave -/

/-- A command that answers a next state raised one error on s, or wrote its results and completed. -/
theorem exec_next {i : Instr} {s t : State} (h : exec i s = .next t) :
    (∃ e : ErrorKind, t = { s with errcode := e.code, err := true, cmdl := none }) ∨
    ∃ u, Writes i s u ∧ t = { u with errcode := 0, cmdl := none } := by
  obtain ⟨e, -, raised⟩ | ⟨u, writes, completed⟩ := exec_cases i s
  · exact .inl ⟨e, raiseError_next (raised ▸ h)⟩
  · exact .inr ⟨u, writes, complete_next (completed ▸ h)⟩

/-! ### HDATA -/

/-- What a successful command writes leaves HDATA as it was (rule R27). -/
theorem Writes.hdata_eq {i : Instr} {s u : State} (w : Writes i s u) : u.hdata = s.hdata := by
  cases w <;> rfl

/-- No command writes HDATA, whether it fails or not (rule R27). -/
theorem exec_keeps_hdata {i : Instr} {s t : State} (h : exec i s = .next t) : t.hdata = s.hdata := by
  obtain ⟨e, rfl⟩ | ⟨u, w, rfl⟩ := exec_next h
  · rfl
  · exact w.hdata_eq

/-- The state s with another HDATA. -/
def State.withHdata (h : Vector Word 4) (s : State) : State := { s with hdata := h }

/-- An answer with another HDATA in its next state, if it has one. -/
def answerWithHdata (h : Vector Word 4) : Answer → Answer
  | .next t => .next (t.withHdata h)
  | .fault f => .fault f
  | .refused r => .refused r

/-! The operand checks do not read HDATA: a check goes the same way on s with another HDATA, so that it answers the same up
to HDATA when what follows it does. -/

section
variable {h : Vector Word 4} {s : State}

theorem needVec_withHdata (i : VNum) {rest rest' : Answer} (hrest : rest' = answerWithHdata h rest) :
    needVec i (s.withHdata h) rest' = answerWithHdata h (needVec i s rest) := by
  obtain ⟨empty, e⟩ | ⟨held, e⟩ := needVec_cases i s rest <;> rw [e]
  · exact needVec_empty (s := s.withHdata h) rest' empty
  · exact (needVec_held (s := s.withHdata h) rest' held).trans hrest

theorem sameLen_withHdata (a b : VNum) {rest rest' : Answer} (hrest : rest' = answerWithHdata h rest) :
    sameLen a b (s.withHdata h) rest' = answerWithHdata h (sameLen a b s rest) := by
  obtain ⟨differ, e⟩ | ⟨same, e⟩ := sameLen_cases a b s rest <;> rw [e]
  · exact sameLen_differ (s := s.withHdata h) rest' differ
  · exact (sameLen_same (s := s.withHdata h) rest' same).trans hrest

theorem needLen_withHdata (i : VNum) (n : Nat) {rest rest' : Answer} (hrest : rest' = answerWithHdata h rest) :
    needLen i n (s.withHdata h) rest' = answerWithHdata h (needLen i n s rest) := by
  obtain ⟨differ, e⟩ | ⟨same, e⟩ := needLen_cases i n s rest <;> rw [e]
  · exact needLen_differ (s := s.withHdata h) rest' differ
  · exact (needLen_same (s := s.withHdata h) rest' same).trans hrest

theorem needOrder_withHdata {rest rest' : Nat → Answer} (hrest : ∀ r, rest' r = answerWithHdata h (rest r)) :
    needOrder (s.withHdata h) rest' = answerWithHdata h (needOrder s rest) := by
  obtain ⟨invalid, e⟩ | ⟨valid, e⟩ := needOrder_cases s rest <;> rw [e]
  · exact needOrder_invalid (s := s.withHdata h) rest' invalid
  · exact (needOrder_valid (s := s.withHdata h) rest' valid).trans (hrest _)

end

/-- Only LOAD reads HDATA: every other command answers the same on every HDATA, up to HDATA itself (rule R27). -/
theorem exec_withHdata {i : Instr} (hi : ∀ vd n, i ≠ .load vd n) (h : Vector Word 4) (s : State) :
    exec i (s.withHdata h) = answerWithHdata h (exec i s) := by
  cases i with
  | load vd n => exact absurd rfl (hi vd n)
  | vxor vd va vb | vand vd va vb | hdist va vb =>
    exact needVec_withHdata va (needVec_withHdata vb (sameLen_withHdata va vb rfl))
  | vnot vd va => exact needVec_withHdata va rfl
  | enc vd va | dec vd va | srch vd va | fsrch vd va =>
    simp only [exec, execEnc, execDec, execSrch, execFsrch]
    exact needOrder_withHdata fun r => needVec_withHdata va (needLen_withHdata va _ rfl)

/-- Settles O47, from the port's equations for HDATA and from how commands answer on another HDATA. -/
theorem hdataRegisters : Obligations.HdataRegisters := by
  refine ⟨fun s x j => ⟨portRead_hdata j s, dataWord_dataOfWords s.hdata j, fun idle => ?_, fun busy => ?_⟩, fun j => ?_,
    fun i s t h hexec => ⟨exec_keeps_hdata hexec, fun hi => ?_⟩⟩
  · rw [portWrite_hdata, unlessBusy_idle _ idle]
    refine ⟨rfl, fun k => ?_⟩
    rw [portRead_hdata]
    simp only [Fin.getElem_fin, Vector.getElem_set, Fin.val_inj, eq_comm]
  · rw [portWrite_hdata, unlessBusy_busy _ busy]
  · simp [State.reset]
  · exact (exec_withHdata hi h s).trans (congrArg (answerWithHdata h) hexec)

/-! ### Vector registers -/

theorem regWf_encf {r : Nat} (hr : r ≤ 7) (m : Data) : RegWf ⟨endDim r, encf r m⟩ :=
  ⟨endDim_le hr, fun k _ hk => by simp [getLsbD_encf, ← endDim_eq, Nat.not_lt.mpr hk]⟩

theorem regWf_decf {r : Nat} (hr : r ≤ 7) (y : Data) : RegWf ⟨startDim r, decf r y⟩ :=
  ⟨show r + 1 ≤ 128 by omega, fun k _ hk => by simp [getLsbD_decf, ← startDim_eq, Nat.not_lt.mpr hk]⟩

theorem regWf_load {n : Nat} {d : Data} (hn : n ≤ 128) (h : natlen d ≤ n) : RegWf ⟨n, d⟩ :=
  ⟨hn, fun _ _ hk => getLsbD_of_natlen_le h hk⟩

theorem RegWf.xor {x y : VReg} (hx : RegWf x) (hy : RegWf y) (h : x.len = y.len) : RegWf ⟨x.len, x.data ^^^ y.data⟩ :=
  ⟨hx.1, fun k hk hle => by simp [hx.2 k hk hle, hy.2 k hk (h ▸ hle)]⟩

theorem RegWf.and {x : VReg} (hx : RegWf x) (d : Data) : RegWf ⟨x.len, x.data &&& d⟩ :=
  ⟨hx.1, fun k hk hle => by simp [hx.2 k hk hle]⟩

theorem RegWf.not {x : VReg} (hx : RegWf x) : RegWf ⟨x.len, ~~~x.data &&& mask x.len⟩ :=
  ⟨hx.1, fun k _ hle => by simp [Nat.not_lt.mpr hle]⟩

/-- A successful command writes no vector register, or one, with a length that is not 0 and, when the operands are well
formed, a well-formed value (rules R14 to R16). -/
theorem Writes.vreg_cases {i : Instr} {s u : State} (w : Writes i s u) :
    (∀ k, u.vreg k = s.vreg k) ∨
    ∃ vd x, (∀ k, u.vreg k = if k = vd then x else s.vreg k) ∧ x.len ≠ 0 ∧ (VregsWf s → RegWf x) := by
  cases w with
  | load hn hl =>
    exact .inr ⟨_, _, fun k => s.vreg_setVreg _ k _ _, Nat.pos_iff_ne_zero.mp ((natlen_pos _).trans hl),
      fun _ => regWf_load hn hl⟩
  | @vxor vd va vb _ ha hl =>
    exact .inr ⟨_, _, fun k => s.vreg_setVreg _ k _ _, ha, fun wf => (wf va).xor (wf vb) hl⟩
  | @vand vd va vb _ ha hl => exact .inr ⟨_, _, fun k => s.vreg_setVreg _ k _ _, ha, fun wf => (wf va).and _⟩
  | @vnot vd va _ ha => exact .inr ⟨_, _, fun k => s.vreg_setVreg _ k _ _, ha, fun wf => (wf va).not⟩
  | enc _ hr _ => exact .inr ⟨_, _, fun k => s.vreg_setVreg _ k _ _, endDim_ne_zero _, fun _ => regWf_encf hr _⟩
  | dec _ hr _ => exact .inr ⟨_, _, fun k => s.vreg_setVreg _ k _ _, Nat.succ_ne_zero _, fun _ => regWf_decf hr _⟩
  | hdist => exact .inl fun _ => rfl
  | srch _ hr _ | fsrch _ hr _ =>
    exact .inr ⟨_, _, fun k => s.vreg_setVreg _ k _ _, endDim_ne_zero _, fun _ => regWf_encf hr _⟩

/-- Settles O58: an error keeps every register, and a success writes at most one, as `Writes.vreg_cases` says. -/
theorem commandsKeepVectorsWellFormed : Obligations.CommandsKeepVectorsWellFormed := by
  intro i s t h
  obtain ⟨e, rfl⟩ | ⟨u, w, rfl⟩ := exec_next h
  · exact ⟨id, fun _ => id⟩
  change (VregsWf s → ∀ k, RegWf (u.vreg k)) ∧ ∀ k, (u.vreg k).len = 0 → (s.vreg k).len = 0
  obtain kept | ⟨vd, x, written, nonempty, hx⟩ := w.vreg_cases
  · simp only [kept]
    exact ⟨id, fun _ => id⟩
  · refine ⟨fun wf k => ?_, fun k => ?_⟩ <;> rw [written k] <;> split
    · exact hx wf
    · exact wf k
    · exact fun empty => absurd empty nonempty
    · exact id

end Sys2Proof.Machine
end

section
/-! PROOFS. What the two searches return, and with it the values that RESULT0 and RESULT1 get (rule R26). -/

namespace Sys2Proof.Machine

/-! ### Counts and distances -/

/-- Two vectors that differ in every position below n have n ones between them there. -/
theorem popcountBelow_add_of_complement {a b : Data} {n : Nat} (h : ∀ k < n, b.getLsbD k = !a.getLsbD k) :
    popcountBelow a n + popcountBelow b n = n := by
  induction n with
  | zero => simp
  | succ n ih =>
    have hbits : (a.getLsbD n).toNat + (b.getLsbD n).toNat = 1 := by
      rw [h n (by omega)]
      cases a.getLsbD n <;> rfl
    have := ih fun k hk => h k (by omega)
    rw [popcountBelow_succ, popcountBelow_succ]
    omega

/-- No distance is larger than the width of a register (rule R71). -/
theorem hammingDist_le (a b : Data) (n : Nat) : hammingDist a b n ≤ 128 := popcount_le _

/-- The distances of a vector and of its complement add up to the length. -/
theorem hammingDist_add_of_complement {a b y : Data} {n : Nat} (hn : n ≤ 128)
    (h : ∀ k < n, b.getLsbD k = !a.getLsbD k) : hammingDist a y n + hammingDist b y n = n := by
  rw [hammingDist_eq a y hn, hammingDist_eq b y hn]
  refine popcountBelow_add_of_complement fun k hk => ?_
  simp [h k hk]

/-- Of a score that is not negative the implied distance is the distance itself (rule R73). -/
theorem impliedDist_score_nonneg {r : Nat} {c y : Data} (h : 0 ≤ score r c y) :
    impliedDist r (score r c y) = hammingDist c y (endDim r) := by
  rw [impliedDist, if_pos h, score]
  omega

/-- Of a negative score it is the distance to the complement (rule R73). -/
theorem impliedDist_score_neg {r : Nat} {c y : Data} (h : ¬ 0 ≤ score r c y) :
    impliedDist r (score r c y) = endDim r - hammingDist c y (endDim r) := by
  rw [impliedDist, if_neg h, score]
  omega

/-! ### Messages -/

/-- A message of order r: no bit of it at or above r + 1 is 1. -/
def MessageFits (r : Nat) (m : Data) : Prop := ∀ k, startDim r ≤ k → m.getLsbD k = false

theorem MessageFits.toNat_lt {r : Nat} {m : Data} (h : MessageFits r m) : m.toNat < 2 ^ (r + 1) :=
  Nat.lt_pow_two_of_testBit _ h

theorem messageFits_zero (r : Nat) : MessageFits r 0 := fun _ _ => BitVec.getLsbD_zero

theorem getLsbD_bit (r k : Nat) (hk : k < 128) : (1#128 <<< r).getLsbD k = decide (k = r) := by
  rw [BitVec.getLsbD_shiftLeft, BitVec.getLsbD_one]
  by_cases h : k = r
  · simp [h, h ▸ hk]
  · simp [h]
    omega

/-- Flipping bit r keeps a message of order r one. -/
theorem MessageFits.flip_top {r : Nat} {m : Data} (h : MessageFits r m) : MessageFits r (m ^^^ 1#128 <<< r) := by
  intro k hk
  by_cases hk' : k < 128
  · rw [BitVec.getLsbD_xor, h k hk, getLsbD_bit r k hk', decide_eq_false (show k ≠ r from Nat.ne_of_gt hk)]
    rfl
  · exact BitVec.getLsbD_of_ge _ _ (Nat.le_of_not_lt hk')

/-- The loop of `plusOne` leaves the bits it has not passed. -/
theorem getLsbD_plusOneLoop_of_le (v : Data) {n k : Nat} (h : n ≤ k) (hk : k < 128) :
    (plusOneLoop v n).1.getLsbD k = v.getLsbD k := by
  induction n with
  | zero => rfl
  | succ n ih =>
    rw [plusOneLoop, getLsbD_setBit _ _ _ _ hk, if_neg (by omega), ih (by omega)]

/-- Counting up keeps a message of order r one, since the final carry is dropped (rule R56). -/
theorem MessageFits.plusOne {r : Nat} {m : Data} (h : MessageFits r m) : MessageFits r (plusOne m (startDim r)) := by
  intro k hk
  by_cases hk' : k < 128
  · rw [Machine.plusOne, getLsbD_plusOneLoop_of_le m hk hk', h k hk]
  · exact BitVec.getLsbD_of_ge _ _ (Nat.le_of_not_lt hk')

/-- Flipping bit r of a message flips every bit of its codeword (rule R65). -/
theorem getLsbD_encf_flip_top {r : Nat} (hr : r ≤ 7) (m : Data) {c : Nat} (hc : c < endDim r) :
    (encf r (m ^^^ 1#128 <<< r)).getLsbD c = !(encf r m).getLsbD c := by
  have hbit : encodeBit r (m ^^^ 1#128 <<< r) c = !encodeBit r m c := by
    have hlow : ∀ j < r, (m ^^^ 1#128 <<< r).getLsbD j = m.getLsbD j := fun j hj => by
      rw [BitVec.getLsbD_xor, getLsbD_bit r j (by omega), decide_eq_false (Nat.ne_of_lt hj), Bool.xor_false]
    rw [encodeBit_eq, encodeBit_eq, xorBelow_congr fun j hj => by rw [hlow j hj], BitVec.getLsbD_xor,
      getLsbD_bit r r (by omega), decide_eq_true rfl, Bool.xor_true, Bool.xor_not]
  have hc' : c < 128 := Nat.lt_of_lt_of_le hc (endDim_le hr)
  rw [getLsbD_encf, getLsbD_encf, hbit]
  simp [← endDim_eq, hc, hc']

/-! ### The exhaustive search (rules R74, R75) -/

/-- A best candidate that the enumeration can hold: a message of order r, with its distance and score against y. -/
def IsCandidate (r : Nat) (y : Data) (b : Best) : Prop := MessageFits r b.msg ∧ b = candidate r y b.msg

theorem isCandidate_candidate {r : Nat} {m : Data} (y : Data) (h : MessageFits r m) :
    IsCandidate r y (candidate r y m) := ⟨h, rfl⟩

theorem IsCandidate.keepFirst {r : Nat} {y : Data} {b c : Best} (hb : IsCandidate r y b) (hc : IsCandidate r y c) :
    IsCandidate r y (keepFirst b c) := by
  obtain ⟨e, -⟩ | ⟨e, -⟩ := keepFirst_cases b c <;> rw [e] <;> assumption

theorem isCandidate_searchLoop {r : Nat} {y : Data} (k : Nat) {m : Data} {best : Best} (hm : MessageFits r m)
    (hbest : IsCandidate r y best) : IsCandidate r y (searchLoop r y k m best) := by
  induction k generalizing m best with
  | zero => exact hbest
  | succ k ih => exact ih hm.plusOne (hbest.keepFirst (isCandidate_candidate y hm))

theorem isCandidate_searchBest (r : Nat) (y : Data) : IsCandidate r y (searchBest r y) :=
  isCandidate_searchLoop _ (messageFits_zero r).plusOne (isCandidate_candidate y (messageFits_zero r))

theorem messageFits_searchMsg {r : Nat} {y : Data} {b : Best} (h : IsCandidate r y b) :
    MessageFits r (searchMsg r b) := by
  unfold searchMsg
  split
  · exact h.1
  · exact h.1.flip_top

/-- The distance a candidate stands for is the distance of the codeword that would be returned for it, the complement's on
the negative branch. -/
theorem dist_eq_hammingDist_searchMsg {r : Nat} {y : Data} {b : Best} (hr : r ≤ 7) (h : IsCandidate r y b) :
    b.dist = hammingDist (encf r (searchMsg r b)) y (endDim r) := by
  obtain ⟨-, hb⟩ := h
  have hscore : b.score = score r (encf r b.msg) y := congrArg Best.score hb
  have hdist : b.dist = impliedDist r (score r (encf r b.msg) y) := congrArg Best.dist hb
  rw [hdist, searchMsg, hscore]
  split
  · next hpos => exact impliedDist_score_nonneg hpos
  · next hneg =>
    have hsum := hammingDist_add_of_complement (y := y) (endDim_le hr) fun c hc => getLsbD_encf_flip_top hr b.msg hc
    rw [impliedDist_score_neg hneg]
    omega

/-- SRCHF returns the codeword of a message of order r, with its distance to the input (rule R75). -/
theorem srchf_spec {r : Nat} (hr : r ≤ 7) (y : Data) :
    MessageFits r (srchf r y).msg ∧ (srchf r y).codeword = encf r (srchf r y).msg ∧
    (srchf r y).dist = hammingDist (srchf r y).codeword y (endDim r) :=
  ⟨messageFits_searchMsg (isCandidate_searchBest r y), rfl, dist_eq_hammingDist_searchMsg hr (isCandidate_searchBest r y)⟩

/-! ### The transform search (rules R78 to R81) -/

/-- Every entry of H(k) is 1 or -1. -/
theorem natAbs_signMatrix (k i j : Nat) : (signMatrix k i j).natAbs = 1 := by
  induction k generalizing i j with
  | zero => rfl
  | succ k ih =>
    rw [signMatrix]
    split
    · rw [Int.natAbs_neg, ih]
    · exact ih _ _

theorem natAbs_signOf (b : Bool) : (signOf b).natAbs = 1 := by
  cases b <;> rfl

theorem natAbs_sumBelow_le {f : Nat → Int} (h : ∀ k, (f k).natAbs ≤ 1) (n : Nat) : (sumBelow f n).natAbs ≤ n := by
  induction n with
  | zero => exact Nat.le_refl 0
  | succ n ih =>
    have := h n
    rw [sumBelow]
    omega

/-- No value of the transform is larger than the codeword length (rule R80). -/
theorem natAbs_transform_le (r : Nat) (y : Data) (j : Nat) : (transform r y j).natAbs ≤ endDim r :=
  natAbs_sumBelow_le (fun i => by rw [Int.natAbs_mul, natAbs_signOf, natAbs_signMatrix]) _

/-- FSRCHF returns the codeword of a message of order r, with a peak that is no larger than the codeword length (rule R81). -/
theorem fsrchf_spec (r : Nat) (y : Data) :
    (fsrchf r y).msg < 2 ^ (r + 1) ∧ (fsrchf r y).codeword = encf r (BitVec.ofNat 128 (fsrchf r y).msg) ∧
    (fsrchf r y).peak.natAbs ≤ endDim r := by
  refine ⟨?_, rfl, natAbs_transform_le r y _⟩
  have hpeak : peakIndex (transform r y) (endDim r) < 2 ^ r := (peakIndex_spec _ _).2.2 (Nat.two_pow_pos r)
  simp only [fsrchf, Nat.pow_succ]
  split <;> omega

/-! ### RESULT0 and RESULT1 -/

/-- A message of order r ≤ 7 fits a result register. -/
theorem two_pow_succ_le_of_le {r : Nat} (hr : r ≤ 7) : 2 ^ (r + 1) ≤ 256 :=
  Nat.pow_le_pow_right (n := 2) (by decide) (show r + 1 ≤ 8 by omega)

/-- A small number written to a result register is read back. -/
theorem toNat_ofNat_word {n : Nat} (h : n ≤ 256) : (BitVec.ofNat 32 n).toNat = n := by
  rw [BitVec.toNat_ofNat]
  omega

/-- A small signed number written to a result register is read back. -/
theorem toInt_ofInt_word {n : Int} (h : n.natAbs ≤ 128) : (BitVec.ofInt 32 n).toInt = n :=
  BitVec.toInt_ofInt_eq_self (by decide) (by omega) (by omega)

/-- What SRCH puts into RESULT0 and RESULT1: the message and the distance of the codeword it returns (rule R76). -/
theorem srch_results {r : Nat} (hr : r ≤ 7) (y : Data) :
    ((srchf r y).msg.setWidth 32).toNat < 2 ^ (r + 1) ∧
    (srchf r y).codeword = encf r (BitVec.ofNat 128 ((srchf r y).msg.setWidth 32).toNat) ∧
    (BitVec.ofInt 32 (srchf r y).dist).toNat = hammingDist (srchf r y).codeword y (endDim r) := by
  obtain ⟨fits, hcode, hdist⟩ := srchf_spec hr y
  have hlt := fits.toNat_lt
  have hread : ((srchf r y).msg.setWidth 32).toNat = (srchf r y).msg.toNat := by
    rw [BitVec.toNat_setWidth]
    have := two_pow_succ_le_of_le hr
    omega
  refine ⟨hread ▸ hlt, ?_, ?_⟩
  · rw [hread, BitVec.ofNat_toNat, BitVec.setWidth_eq, ← hcode]
  · rw [hdist, BitVec.ofInt_natCast]
    exact toNat_ofNat_word ((hammingDist_le _ _ _).trans (by decide))

/-- What FSRCH puts into RESULT0 and RESULT1: the message of the codeword it returns and the signed peak (rule R82). -/
theorem fsrch_results {r : Nat} (hr : r ≤ 7) (y : Data) :
    (BitVec.ofNat 32 (fsrchf r y).msg).toNat < 2 ^ (r + 1) ∧
    (fsrchf r y).codeword = encf r (BitVec.ofNat 128 (BitVec.ofNat 32 (fsrchf r y).msg).toNat) ∧
    (BitVec.ofInt 32 (fsrchf r y).peak).toInt = (fsrchf r y).peak ∧
    -(2 ^ r) ≤ (fsrchf r y).peak ∧ (fsrchf r y).peak ≤ 2 ^ r := by
  obtain ⟨hlt, hcode, hpeak⟩ := fsrchf_spec r y
  have hread := toNat_ofNat_word (hlt.le.trans (two_pow_succ_le_of_le hr))
  have hrange : |(fsrchf r y).peak| ≤ 2 ^ r := by
    rw [Int.abs_eq_natAbs]
    exact_mod_cast hpeak
  refine ⟨hread.symm ▸ hlt, ?_, toInt_ofInt_word (hpeak.trans (endDim_le hr)), abs_le.mp hrange⟩
  rw [hread, ← hcode]

/-- Settles O46. A command that raised an error, and one that writes a vector only, keep both registers; what the three
others write is a distance, `srch_results` and `fsrch_results`. -/
theorem resultRegisters : Obligations.ResultRegisters := by
  refine ⟨fun i s t h => ?_, fun s x => ⟨portRead_result0 s, portRead_result1 s, portWrite_result0 x s,
    portWrite_result1 x s⟩⟩
  obtain ⟨e, rfl⟩ | ⟨u, w, rfl⟩ := exec_next h
  · refine ⟨fun _ => ⟨rfl, rfl⟩, ?_⟩
    cases i with
    | hdist | srch | fsrch => exact fun success => absurd success e.code_ne_zero
    | load | vxor | vand | vnot | enc | dec => exact ⟨rfl, rfl⟩
  refine ⟨fun failure => absurd rfl failure, ?_⟩
  cases w with
  | load | vxor | vand | vnot | enc | dec => exact ⟨rfl, rfl⟩
  | hdist => exact fun _ => ⟨toNat_ofNat_word ((hammingDist_le _ _ _).trans (by decide)), rfl⟩
  | @srch vd va _ _ hr _ =>
    have written := congrArg VReg.data
      (s.vreg_setVreg_same vd (endDim s.order.toNat) (srchf s.order.toNat (s.vreg va).data).codeword)
    obtain ⟨hlt, hcode, hdist⟩ := srch_results hr (s.vreg va).data
    exact fun _ => ⟨hlt, written.trans hcode, hdist.trans (congrArg (hammingDist · _ _) written.symm)⟩
  | @fsrch vd va _ _ hr _ =>
    have written := congrArg VReg.data
      (s.vreg_setVreg_same vd (endDim s.order.toNat) (fsrchf s.order.toNat (s.vreg va).data).codeword)
    obtain ⟨hlt, hcode, hpeak, hlow, hhigh⟩ := fsrch_results hr (s.vreg va).data
    exact fun _ => ⟨hlt, written.trans hcode, hpeak, hpeak.symm ▸ hlow, hpeak.symm ▸ hhigh⟩

end Sys2Proof.Machine
end

section
/-! PROOFS. The register window: where the map puts the vector registers and the reserved offsets, the reserved fields, the
byte lanes, and the statements of 20_memory.md about them. -/

namespace Sys2Proof.Machine

/-! ### The register map above HDATA (rules R19, R28, R37) -/

/-- Data word j of V[k] stands at 0x100 + 0x20k + 4j. -/
theorem regAt_vregData (k : VNum) (j : Fin 4) : regAt (0x100 + 0x20 * k.val + 4 * j.val) = .vregData k j := by
  revert k j
  decide

/-- The length of V[k] stands at 0x100 + 0x20k + 0x10. -/
theorem regAt_vregLen (k : VNum) : regAt (0x100 + 0x20 * k.val + 0x10) = .vregLen k := by
  revert k
  decide

/-- The three rows of the map from 0x100 on: data words, length word, nothing. -/
theorem regAt_window {off : Nat} (h : 0x100 ≤ off) : regAt off =
    if off % 0x20 < 0x10 then .vregData (Fin.ofNat 8 ((off - 0x100) / 0x20)) (Fin.ofNat 4 (off % 0x20 / 4))
    else if off % 0x20 = 0x10 then .vregLen (Fin.ofNat 8 ((off - 0x100) / 0x20))
    else .reserved := by
  have hne : ∀ n < 0x100, off ≠ n := fun n hn => by omega
  simp [regAt, hne, Nat.not_lt.mpr h, Nat.not_lt.mpr (Nat.le_trans (by decide : 0x030 ≤ 0x100) h)]

/-! ### Reserved offsets (rule R37) -/

section
variable {off : Nat} (h : 0x030 ≤ off ∧ off < 0x100 ∨ 0x100 ≤ off ∧ 0x14 ≤ off % 0x20)
include h

/-- The map gives no register from 0x030 to 0x0FC, nor above the length word of a vector window. -/
theorem regAt_reserved : regAt off = .reserved := by
  obtain ⟨hlow, hhigh⟩ | ⟨hwin, hmod⟩ := h
  · have hne : ∀ n < 0x030, off ≠ n := fun n hn => by omega
    simp [regAt, hne, Nat.not_lt.mpr hlow, hhigh]
  · rw [regAt_window hwin, if_neg (by omega), if_neg (by omega)]

/-- A read there returns 0, whatever its width (rule R35). -/
theorem portRead_reserved (width : Nat) (s : State) : portRead off width s = 0 := by
  rw [portRead, regAt_reserved h]
  split <;> rfl

/-- A write there is ignored, whatever its width (rule R35). -/
theorem portWrite_reserved (width : Nat) (x : Word) (s : State) : portWrite off width x s = s := by
  rw [portWrite, regAt_reserved h]
  split <;> rfl

end

/-! ### Reads and writes of the vector windows (rule R28) -/

theorem portRead_vregData (k : VNum) (j : Fin 4) (s : State) :
    portRead (0x100 + 0x20 * k.val + 4 * j.val) 4 s = dataWord (s.vreg k).data j := by
  rw [portRead_aligned (by omega), regAt_vregData]
  rfl

theorem portRead_vregLen (k : VNum) (s : State) :
    (portRead (0x100 + 0x20 * k.val + 0x10) 4 s).toNat = (s.vreg k).len % 256 := by
  rw [portRead_aligned (by omega), regAt_vregLen]
  simp only [readReg, BitVec.toNat_ofNat]
  omega

/-- No write from 0x100 on has an effect: none of the three rows there is writable. -/
theorem portWrite_window {off : Nat} (h : 0x100 ≤ off) (width : Nat) (x : Word) (s : State) :
    portWrite off width x s = s := by
  have ignored : writeReg (regAt off) x s = s := by
    rw [regAt_window h]
    split
    · rfl
    · split <;> rfl
  rw [portWrite, ignored, ite_self]

/-- An access of another width or alignment is not served (rule R35). -/
theorem not_served {off width : Nat} (h : width ≠ 4 ∨ off % 4 ≠ 0) : served off width = false := by
  simp only [served, decide_eq_false_iff_not]
  omega

/-! ### The bus's byte lanes (rule R34) -/

/-- Bit b of byte lane `off` is bit 8 (off mod 4) + b of the register that holds the lane. -/
theorem getLsbD_windowByte (s : State) (off : Nat) {b : Nat} (hb : b < 8) :
    (windowByte s off).getLsbD b = (portRead (off - off % 4) 4 s).getLsbD (8 * (off % 4) + b) := by
  rw [portRead_aligned (by omega), windowByte, BitVec.getLsbD_extractLsb', decide_eq_true hb, Bool.true_and]

/-- The lane and the bit in it at which the bus finds bit b of V[k]. -/
theorem getLsbD_windowByte_vreg (s : State) (k : VNum) {b : Nat} (hb : b < 128) :
    (windowByte s (0x100 + 0x20 * k.val + 4 * (b / 32) + b % 32 / 8)).getLsbD (b % 8) = (s.vreg k).data.getLsbD b := by
  let j : Fin 4 := ⟨b / 32, by omega⟩
  have hlane : (0x100 + 0x20 * k.val + 4 * (b / 32) + b % 32 / 8) % 4 = b % 32 / 8 := by omega
  have hbit : 8 * (b % 32 / 8) + b % 8 = b % 32 := by omega
  have hword : portRead (0x100 + 0x20 * k.val + 4 * (b / 32)) 4 s = dataWord (s.vreg k).data j := portRead_vregData k j s
  rw [getLsbD_windowByte s _ (Nat.mod_lt b (by decide)), hlane, hbit, Nat.add_sub_cancel, hword, getLsbD_dataWord,
    decide_eq_true (Nat.mod_lt b (by decide)), Bool.true_and, Nat.div_add_mod]

/-- Settles O48, from the port's equations for the vector windows and the bus's byte lanes. -/
theorem vectorWindows : Obligations.VectorWindows := by
  intro s k x
  refine ⟨fun j => portRead_vregData k j s, fun hlen => ?_, portRead_reserved (by omega) 4 s,
    portRead_reserved (by omega) 4 s, portRead_reserved (by omega) 4 s, fun j _ => portWrite_window (by omega) 4 x s,
    fun off width => (portWrite_keeps off width x s).1, fun off _ b hb => getLsbD_windowByte s off hb,
    fun b hb => getLsbD_windowByte_vreg s k hb⟩
  rw [portRead_vregLen, Nat.mod_eq_of_lt (by omega)]

/-! ### Reserved fields (rules R22, R23, R25) -/

/-- DIMS has 8 reserved bits between its two fields. -/
theorem getLsbD_dimsWord_reserved (s : State) {k : Nat} (hlow : 8 ≤ k) (hhigh : k < 16) :
    s.dimsWord.getLsbD k = false := by
  rw [State.dimsWord]
  split
  · simp only [BitVec.getLsbD_append]
    rw [if_neg (by omega), if_pos (by omega)]
    exact BitVec.getLsbD_zero
  · exact BitVec.getLsbD_zero

/-- STATUS has its reserved bits between BUSY, ERR, OVR and ERRCODE, and above ERRCODE. -/
theorem getLsbD_statusWord_reserved (s : State) {k : Nat} (h : 3 ≤ k ∧ k < 8 ∨ 16 ≤ k) :
    s.statusWord.getLsbD k = false := by
  simp only [State.statusWord, BitVec.getLsbD_append]
  obtain ⟨hlow, hhigh⟩ | habove := h
  · rw [if_neg (by omega), if_neg (by omega), if_neg (by omega), if_pos (by omega)]
    exact BitVec.getLsbD_zero
  · rw [if_neg (by omega), if_neg (by omega), if_neg (by omega), if_neg (by omega), if_neg (by omega)]
    exact BitVec.getLsbD_zero

@[simp] theorem portRead_status (s : State) : portRead 0x014 4 s = s.statusWord := rfl

theorem portWrite_status (x : Word) (s : State) : portWrite 0x014 4 x s = clearStatus x s := rfl

/-- ORDER takes bits [3:0] of a written word only. -/
theorem portWrite_order_masked (x : Word) (s : State) : portWrite 0x008 4 x s = portWrite 0x008 4 (x &&& 0xF) s := by
  have field : (x &&& 0xF).setWidth 4 = x.setWidth 4 := by
    rw [BitVec.setWidth_and]
    exact BitVec.and_allOnes
  rw [portWrite_order, portWrite_order, field]

/-- STATUS looks at bits 1 and 2 of a written word only. -/
theorem portWrite_status_masked (x : Word) (s : State) : portWrite 0x014 4 x s = portWrite 0x014 4 (x &&& 0x6) s := by
  have hone : (x &&& 0x6).getLsbD 1 = x.getLsbD 1 := by
    rw [BitVec.getLsbD_and]
    exact Bool.and_true _
  have htwo : (x &&& 0x6).getLsbD 2 = x.getLsbD 2 := by
    rw [BitVec.getLsbD_and]
    exact Bool.and_true _
  rw [portWrite_status, portWrite_status, clearStatus, clearStatus, hone, htwo]

/-- A write of a read-only register below the windows, or anywhere from the windows on, is ignored (rule R37). -/
theorem portWrite_readOnly {off : Nat} (h : off ∈ [0x000, 0x004, 0x00C, 0x018, 0x01C] ∨ 0x100 ≤ off) (x : Word)
    (s : State) : portWrite off 4 x s = s := by
  obtain hlow | hwin := h
  · simp only [List.mem_cons, List.not_mem_nil, or_false] at hlow
    obtain rfl | rfl | rfl | rfl | rfl := hlow
    · exact portWrite_id x s
    · exact portWrite_param x s
    · exact portWrite_dims x s
    · exact portWrite_result0 x s
    · exact portWrite_result1 x s
  · exact portWrite_window hwin 4 x s

/-- A length word fits in 8 bits. -/
theorem portRead_lengthOffset_lt {off : Nat} (hwin : 0x100 ≤ off) (hlen : off % 0x20 = 0x10) (s : State) :
    (portRead off 4 s).toNat < 2 ^ 8 := by
  rw [portRead_aligned (by omega), regAt_window hwin, if_neg (by omega), if_pos hlen]
  simp only [readReg, BitVec.toNat_ofNat]
  omega

/-- Settles O49: the accesses that are not served, then the reserved offsets, the read-only registers and the reserved
fields one by one. -/
theorem unservedReservedReadOnly : Obligations.UnservedReservedReadOnly := by
  refine ⟨fun s off width x h => ?_, fun s off x _ _ => ⟨fun h => ⟨portRead_reserved h 4 s, portWrite_reserved h 4 x s⟩,
    fun h => portWrite_readOnly h x s, ?_, fun k => getLsbD_dimsWord_reserved s, fun k => getLsbD_statusWord_reserved s,
    fun hwin hlen => portRead_lengthOffset_lt hwin hlen s, portWrite_order_masked x s, portWrite_status_masked x s⟩⟩
  · simp [portRead, portWrite, not_served h]
  · rw [portRead_order, BitVec.toNat_setWidth_of_le (by decide)]
    exact s.order.isLt

end Sys2Proof.Machine
end

section
/-! PROOFS. What the decoder's loop over the opcode map does, when a word is a formatted word, and the statements of
30_encoding.md about them. -/

namespace Sys2Proof

/-! ### The loop over the rows (rules R48, R49) -/

/-- The loop answers with the command of a row that the word matches, or finds no such row and rejects the word. -/
theorem decodeRows_cases (w : Word) (rows : List OpRow) :
    (∃ row ∈ rows, w &&& row.mask = row.pattern ∧ decodeRows w rows = .ok (row.command w)) ∨
    (∀ row ∈ rows, w &&& row.mask ≠ row.pattern) ∧ decodeRows w rows = .error (whyIllegal w) := by
  induction rows with
  | nil => exact .inr ⟨fun _ h => absurd h List.not_mem_nil, rfl⟩
  | cons row rest ih =>
    by_cases hit : w &&& row.mask = row.pattern
    · exact .inl ⟨row, List.mem_cons_self, hit, if_pos hit⟩
    · have skip : decodeRows w (row :: rest) = decodeRows w rest := if_neg hit
      rw [skip]
      obtain ⟨found, mem, hfound, e⟩ | ⟨miss, e⟩ := ih
      · exact .inl ⟨found, List.mem_cons_of_mem row mem, hfound, e⟩
      · exact .inr ⟨List.forall_mem_cons.mpr ⟨hit, miss⟩, e⟩

/-- The two answers of the decoder. -/
theorem decode_cases (w : Word) :
    (∃ row ∈ opRows, w &&& row.mask = row.pattern ∧ decode w = .ok (row.command w)) ∨
    (∀ row ∈ opRows, w &&& row.mask ≠ row.pattern) ∧ decode w = .error (whyIllegal w) :=
  decodeRows_cases w opRows

/-- The patterns of the rows are the nine opcodes. -/
theorem nodup_patterns : (opRows.map OpRow.pattern).Nodup := by decide

/-- Every row compares the whole of OP, and its pattern is 0 above OP: a word that matches it has the pattern as its OP. -/
theorem pattern_eq_of_hit {w : Word} {row : OpRow} (mem : row ∈ opRows) (hit : w &&& row.mask = row.pattern) :
    row.pattern = w &&& 0xF := by
  have compares : ∀ row ∈ opRows, row.mask &&& 0xF = 0xF ∧ row.pattern &&& 0xF = row.pattern := by decide
  obtain ⟨hmask, hpattern⟩ := compares row mem
  rw [← hpattern, ← hit, BitVec.and_assoc, hmask]

/-- No word matches two rows (rule R49). -/
theorem row_unique {w : Word} {row row' : OpRow} (mem : row ∈ opRows) (mem' : row' ∈ opRows)
    (hit : w &&& row.mask = row.pattern) (hit' : w &&& row'.mask = row'.pattern) : row = row' :=
  List.inj_on_of_nodup_map nodup_patterns mem mem' ((pattern_eq_of_hit mem hit).trans (pattern_eq_of_hit mem' hit').symm)

/-- A row's pattern is the opcode of the commands it gives (rule R48). -/
theorem pattern_eq_opcode {row : OpRow} (mem : row ∈ opRows) (w : Word) :
    row.pattern = (row.command w).opcode.setWidth 32 := by
  simp only [opRows, List.mem_cons, List.not_mem_nil, or_false] at mem
  obtain rfl | rfl | rfl | rfl | rfl | rfl | rfl | rfl | rfl := mem <;> rfl

/-- Two rows that give a word the same command are one row. -/
theorem row_eq_of_command_eq {w : Word} {row row' : OpRow} (mem : row ∈ opRows) (mem' : row' ∈ opRows)
    (same : row.command w = row'.command w) : row = row' :=
  List.inj_on_of_nodup_map nodup_patterns mem mem' (by rw [pattern_eq_opcode mem w, pattern_eq_opcode mem' w, same])

/-- A word matches a row exactly when it decodes to the row's command (rules R48, R49). -/
theorem hit_iff_decode_ok {row : OpRow} (mem : row ∈ opRows) (w : Word) :
    w &&& row.mask = row.pattern ↔ decode w = .ok (row.command w) := by
  obtain ⟨found, hfound, hit, e⟩ | ⟨miss, e⟩ := decode_cases w <;> rw [e]
  · constructor
    · intro h
      rw [row_unique hfound mem hit h]
    · intro h
      rwa [← row_eq_of_command_eq hfound mem (Except.ok.inj h)]
  · exact ⟨fun h => absurd h (miss row mem), fun h => nomatch h⟩

/-- A word is rejected exactly when it is no command. -/
theorem exists_error_iff (w : Word) : (∃ e, decode w = .error e) ↔ ¬ ∃ i, decode w = .ok i := by
  cases decode w <;> simp

/-- A word is a command exactly when it matches some row. -/
theorem exists_ok_iff_hit (w : Word) : (∃ i, decode w = .ok i) ↔ ∃ row ∈ opRows, w &&& row.mask = row.pattern := by
  constructor
  · intro ⟨i, hi⟩
    obtain ⟨row, mem, hit, -⟩ | ⟨-, e⟩ := decode_cases w
    · exact ⟨row, mem, hit⟩
    · rw [e] at hi
      nomatch hi
  · exact fun ⟨row, mem, hit⟩ => ⟨_, (hit_iff_decode_ok mem w).mp hit⟩

theorem length_filter_hit_le_one (w : Word) :
    (opRows.filter fun row => w &&& row.mask = row.pattern).length ≤ 1 := by
  have same : ((opRows.filter fun row => w &&& row.mask = row.pattern).map OpRow.pattern) =
      List.replicate (opRows.filter fun row => w &&& row.mask = row.pattern).length (w &&& 0xF) := by
    refine List.eq_replicate_iff.mpr ⟨List.length_map _, fun p hp => ?_⟩
    obtain ⟨row, hrow, rfl⟩ := List.mem_map.mp hp
    obtain ⟨mem, hit⟩ := List.mem_filter.mp hrow
    exact pattern_eq_of_hit mem (of_decide_eq_true hit)
  rw [← List.nodup_replicate (a := w &&& 0xF), ← same]
  exact nodup_patterns.sublist (List.filter_sublist.map _)

/-! ### Legality field by field (rules R46, R49) -/

theorem getLsbD_eq_false_iff (w : Word) (k : Nat) : w.getLsbD k = false ↔ w.toNat / 2 ^ k % 2 = 0 := by
  rw [← BitVec.testBit_toNat, Nat.testBit_eq_decide_div_mod_eq, decide_eq_false_iff_not, Nat.mod_two_not_eq_one]

/-- A word is its fields and reserved bits: it is a formatted word exactly when its fields are the format's and z0, z1 and z2
are 0 (rules R45, R46). -/
theorem eq_formatWord_iff (w : Word) (op : BitVec 4) (vd va vb : VNum) {imm : Nat} (h : imm < 2 ^ 16) :
    w = formatWord op vd va vb imm ↔
      w.toNat % 16 = op.toNat ∧ (w.toNat / 2 ^ 7 % 2 = 0 ∧ w.toNat / 2 ^ 11 % 2 = 0 ∧ w.toNat / 2 ^ 15 % 2 = 0) ∧
      w.toNat / 2 ^ 4 % 8 = vd.val ∧ w.toNat / 2 ^ 8 % 8 = va.val ∧ w.toNat / 2 ^ 12 % 8 = vb.val ∧
      w.toNat / 2 ^ 16 = imm := by
  have := op.isLt
  have := vd.isLt
  have := va.isLt
  have := vb.isLt
  rw [← BitVec.toNat_inj, toNat_formatWord op vd va vb h]
  omega

/-! The four shapes of a row: which of its fields a word that matches it leaves 0. -/

/-- z0, z1 and z2 are 0. -/
def ReservedZero (w : Word) : Prop := w.getLsbD 7 = false ∧ w.getLsbD 11 = false ∧ w.getLsbD 15 = false

theorem reservedZero_iff (w : Word) :
    ReservedZero w ↔ w.toNat / 2 ^ 7 % 2 = 0 ∧ w.toNat / 2 ^ 11 % 2 = 0 ∧ w.toNat / 2 ^ 15 % 2 = 0 := by
  simp only [ReservedZero, getLsbD_eq_false_iff]

theorem hit_load_iff (w : Word) : w &&& 0x0000FF8F = 0x00000001 ↔
    w.toNat % 16 = 1 ∧ ReservedZero w ∧ w.toNat / 2 ^ 8 % 8 = 0 ∧ w.toNat / 2 ^ 12 % 8 = 0 := by
  rw [hits_load, eq_formatWord_iff w 1 _ _ _ (fieldIMM_lt w), reservedZero_iff, fieldVD_eq, fieldIMM_eq]
  simp

theorem hit_three_iff (op : BitVec 4) (w : Word) : w &&& 0xFFFF888F = op.setWidth 32 ↔
    w.toNat % 16 = op.toNat ∧ ReservedZero w ∧ w.toNat / 2 ^ 16 = 0 := by
  rw [hits_three, eq_formatWord_iff w op _ _ _ (by decide), reservedZero_iff, fieldVD_eq, fieldVA_eq, fieldVB_eq]
  simp

theorem hit_two_iff (op : BitVec 4) (w : Word) : w &&& 0xFFFFF88F = op.setWidth 32 ↔
    w.toNat % 16 = op.toNat ∧ ReservedZero w ∧ w.toNat / 2 ^ 12 % 8 = 0 ∧ w.toNat / 2 ^ 16 = 0 := by
  rw [hits_two, eq_formatWord_iff w op _ _ _ (by decide), reservedZero_iff, fieldVD_eq, fieldVA_eq]
  simp

theorem hit_hdist_iff (w : Word) : w &&& 0xFFFF88FF = 0x00000007 ↔
    w.toNat % 16 = 7 ∧ ReservedZero w ∧ w.toNat / 2 ^ 4 % 8 = 0 ∧ w.toNat / 2 ^ 16 = 0 := by
  rw [hits_hdist, eq_formatWord_iff w 7 _ _ _ (by decide), reservedZero_iff, fieldVA_eq, fieldVB_eq]
  simp

/-- The fields that the row of the word's opcode marks "0" are zero (rule R48). -/
def UnusedFieldsZero (w : Word) : Prop :=
  (w.toNat % 16 = 1 → w.toNat / 2 ^ 8 % 8 = 0 ∧ w.toNat / 2 ^ 12 % 8 = 0) ∧
  (w.toNat % 16 = 2 ∨ w.toNat % 16 = 3 → w.toNat / 2 ^ 16 = 0) ∧
  (w.toNat % 16 = 4 ∨ w.toNat % 16 = 5 ∨ w.toNat % 16 = 6 ∨ w.toNat % 16 = 8 ∨ w.toNat % 16 = 9 →
    w.toNat / 2 ^ 12 % 8 = 0 ∧ w.toNat / 2 ^ 16 = 0) ∧
  (w.toNat % 16 = 7 → w.toNat / 2 ^ 4 % 8 = 0 ∧ w.toNat / 2 ^ 16 = 0)

/-- A word matches a row exactly when its OP is the row's pattern and its reserved bits and unused fields are 0. -/
theorem hit_iff_fields {row : OpRow} (mem : row ∈ opRows) (w : Word) : w &&& row.mask = row.pattern ↔
    w.toNat % 16 = row.pattern.toNat ∧ ReservedZero w ∧ UnusedFieldsZero w := by
  simp only [opRows, List.mem_cons, List.not_mem_nil, or_false] at mem
  obtain rfl | rfl | rfl | rfl | rfl | rfl | rfl | rfl | rfl := mem
  · exact (hit_load_iff w).trans (and_congr_right fun op => by simp [UnusedFieldsZero, op])
  · exact (hit_three_iff 2 w).trans (and_congr_right fun op => by simp [UnusedFieldsZero, op])
  · exact (hit_three_iff 3 w).trans (and_congr_right fun op => by simp [UnusedFieldsZero, op])
  · exact (hit_two_iff 4 w).trans (and_congr_right fun op => by simp [UnusedFieldsZero, op])
  · exact (hit_two_iff 5 w).trans (and_congr_right fun op => by simp [UnusedFieldsZero, op])
  · exact (hit_two_iff 6 w).trans (and_congr_right fun op => by simp [UnusedFieldsZero, op])
  · exact (hit_hdist_iff w).trans (and_congr_right fun op => by simp [UnusedFieldsZero, op])
  · exact (hit_two_iff 8 w).trans (and_congr_right fun op => by simp [UnusedFieldsZero, op])
  · exact (hit_two_iff 9 w).trans (and_congr_right fun op => by simp [UnusedFieldsZero, op])

/-- A word is a command exactly when its OP is 1 to 9 and its reserved bits and unused fields are 0 (rule R49). -/
theorem exists_ok_iff_fields (w : Word) : (∃ i, decode w = .ok i) ↔
    1 ≤ w.toNat % 16 ∧ w.toNat % 16 ≤ 9 ∧ ReservedZero w ∧ UnusedFieldsZero w := by
  rw [exists_ok_iff_hit]
  constructor
  · intro ⟨row, mem, hit⟩
    have range : ∀ row ∈ opRows, 1 ≤ row.pattern.toNat ∧ row.pattern.toNat ≤ 9 := by decide
    obtain ⟨op, unused⟩ := (hit_iff_fields mem w).mp hit
    rw [op]
    exact ⟨(range row mem).1, (range row mem).2, unused⟩
  · intro ⟨low, high, unused⟩
    have defined : ∀ op ≤ 9, 1 ≤ op → ∃ row ∈ opRows, op = row.pattern.toNat := by decide
    obtain ⟨row, mem, op⟩ := defined _ high low
    exact ⟨row, mem, (hit_iff_fields mem w).mpr ⟨op, unused⟩⟩

/-- The words of rule R50's list are no commands. -/
theorem exists_error_of_listed {w : Word}
    (listed : w.toNat % 16 = 0 ∨ 10 ≤ w.toNat % 16 ∨
      w.getLsbD 7 = true ∨ w.getLsbD 11 = true ∨ w.getLsbD 15 = true ∨
      (w.toNat % 16 = 1 ∧ w.toNat / 2 ^ 8 % 2 ^ 8 ≠ 0) ∨
      ((w.toNat % 16 = 2 ∨ w.toNat % 16 = 3) ∧ w.toNat / 2 ^ 16 ≠ 0) ∨
      ((w.toNat % 16 = 4 ∨ w.toNat % 16 = 5 ∨ w.toNat % 16 = 6 ∨ w.toNat % 16 = 8 ∨ w.toNat % 16 = 9) ∧
        w.toNat / 2 ^ 12 ≠ 0) ∨
      (w.toNat % 16 = 7 ∧ (w.toNat / 2 ^ 4 % 8 ≠ 0 ∨ w.toNat / 2 ^ 16 ≠ 0))) : ∃ e, decode w = .error e := by
  rw [exists_error_iff, exists_ok_iff_fields]
  rintro ⟨low, high, ⟨hz0, hz1, hz2⟩, load, three, two, hdist⟩
  simp only [hz0, hz1, hz2, Bool.false_eq_true, false_or] at listed
  rw [getLsbD_eq_false_iff] at hz0 hz1 hz2
  omega

/-! ### The statements -/

/-- Settles O2: each row says it of its own command, and an opcode outside 1 to 9 is no command's. -/
theorem opcodeMapDecodes : Obligations.OpcodeMapDecodes := by
  intro w vd va vb imm
  have rows : ∀ row ∈ opRows, w &&& row.mask = row.pattern ↔ decode w = .ok (row.command w) :=
    fun row mem => hit_iff_decode_ok mem w
  simp only [opRows, List.forall_mem_cons, fieldVD_eq, fieldVA_eq, fieldVB_eq, fieldIMM_eq] at rows
  obtain ⟨load, vxor, vand, vnot, enc, dec, hdist, srch, fsrch, -⟩ := rows
  refine ⟨load, vxor, vand, vnot, enc, dec, hdist, srch, fsrch, fun undefined => ?_⟩
  rw [exists_error_iff, exists_ok_iff_fields]
  omega

/-- Settles O3: legality field by field, and what the loop over the rows does. -/
theorem decodeIsTotalByRows : Obligations.DecodeIsTotalByRows := by
  refine fun w => ⟨?_, fun row mem => (hit_iff_decode_ok mem w).mp, length_filter_hit_le_one w, fun miss => ?_⟩
  · simpa only [ReservedZero, UnusedFieldsZero, and_assoc] using exists_ok_iff_fields w
  · rw [exists_error_iff, exists_ok_iff_hit]
    exact fun ⟨row, mem, hit⟩ => miss row mem hit

end Sys2Proof

namespace Sys2Proof.Machine

/-- Settles O6: the issue does not decode, the completion raises the one error, and rule R50's list. -/
theorem illegalWordRaisesIllegalCommand : Obligations.IllegalWordRaisesIllegalCommand := by
  refine ⟨fun w _ s _ idle => ?_, fun w e s illegal inFlight due => ?_, fun w => exists_error_of_listed⟩
  · rw [portWrite_cmd, unlessBusy_idle _ idle]
    exact ⟨s.busy_issue w, issue_cmdl s w⟩
  · rw [step_due inFlight due, runCommand_error s illegal]
    rfl

end Sys2Proof.Machine
end

section
/-! PROOFS. The four vector commands, their words, errors and results, and the arithmetic of `plusOne`: the statements of
40_vector_algebra.md. -/

namespace Sys2Proof.Machine

/-! ### The words of the vector commands (rules R48, R58 to R61) -/

theorem toNat_encode_load (vd : VNum) {n : Nat} (h : n < 65536) :
    (encode (.load vd n)).toNat = n * 2 ^ 16 + vd.val * 16 + 0x1 := by
  rw [encode, toNat_formatWord _ _ _ _ h]
  simp [Instr.opcode]

theorem toNat_encode_vxor (vd va vb : VNum) :
    (encode (.vxor vd va vb)).toNat = vb.val * 2 ^ 12 + va.val * 2 ^ 8 + vd.val * 16 + 0x2 := by
  rw [encode, toNat_formatWord _ _ _ _ (by decide)]
  simp [Instr.opcode]

theorem toNat_encode_vand (vd va vb : VNum) :
    (encode (.vand vd va vb)).toNat = vb.val * 2 ^ 12 + va.val * 2 ^ 8 + vd.val * 16 + 0x3 := by
  rw [encode, toNat_formatWord _ _ _ _ (by decide)]
  simp [Instr.opcode]

theorem toNat_encode_vnot (vd va : VNum) :
    (encode (.vnot vd va)).toNat = va.val * 2 ^ 8 + vd.val * 16 + 0x4 := by
  rw [encode, toNat_formatWord _ _ _ _ (by decide)]
  simp [Instr.opcode]

/-! ### The checks of a command with two operands (rule R57) -/

theorem twoOperands_empty {va vb : VNum} {s : State} (rest : Answer) (h : (s.vreg va).len = 0 ∨ (s.vreg vb).len = 0) :
    needVec va s (needVec vb s (sameLen va vb s rest)) = raiseError .emptyOperand s := by
  obtain ⟨-, e⟩ | ⟨ha, e⟩ := needVec_cases va s (needVec vb s (sameLen va vb s rest)) <;> rw [e]
  exact needVec_empty _ (h.resolve_left ha)

theorem twoOperands_differ {va vb : VNum} {s : State} (rest : Answer) (ha : (s.vreg va).len ≠ 0)
    (hb : (s.vreg vb).len ≠ 0) (h : (s.vreg va).len ≠ (s.vreg vb).len) :
    needVec va s (needVec vb s (sameLen va vb s rest)) = raiseError .lengthMismatch s := by
  rw [needVec_held _ ha, needVec_held _ hb, sameLen_differ _ h]

/-! ### LOAD, VXOR, VAND and VNOT -/

/-- Settles O10: LOAD's two checks in their order, and `natlen_pos` for the length 0. -/
theorem loadFollowsRule : Obligations.LoadFollowsRule := by
  intro vd n s
  refine ⟨toNat_encode_load vd, execLoad_long, execLoad_short, ?_, fun hn fits => ⟨?_, fun k => ?_⟩⟩
  · rintro rfl
    exact execLoad_short (Nat.zero_le _) (natlen_pos _)
  · exact execLoad_ok hn fits
  · exact getLsbD_of_natlen_le fits

/-- Settles O11: the checks of two operands, then the exclusive or bit by bit. -/
theorem vxorFollowsRule : Obligations.VxorFollowsRule := by
  refine fun vd va vb s => ⟨toNat_encode_vxor vd va vb, twoOperands_empty _, twoOperands_differ _, fun ha same => ?_⟩
  exact ⟨_, fun _ _ => BitVec.getLsbD_xor, execVxor_ok ha same⟩

/-- Settles O12: the checks of two operands, then the product bit by bit. -/
theorem vandFollowsRule : Obligations.VandFollowsRule := by
  refine fun vd va vb s => ⟨toNat_encode_vand vd va vb, twoOperands_empty _, twoOperands_differ _, fun ha same => ?_⟩
  exact ⟨_, fun _ _ => BitVec.getLsbD_and, execVand_ok ha same⟩

/-- A bit of the complement below a length. -/
theorem getLsbD_not_and_mask (d : Data) (n : Nat) {k : Nat} (hk : k < 128) :
    (~~~d &&& mask n).getLsbD k = (decide (k < n) && !d.getLsbD k) := by
  simp [hk, Bool.and_comm]

/-- Complementing a well-formed register twice below its length gives it back (rule R61). -/
theorem RegWf.not_not {x : VReg} (wf : RegWf x) : ~~~(~~~x.data &&& mask x.len) &&& mask x.len = x.data := by
  refine data_ext fun k hk => ?_
  rw [getLsbD_not_and_mask _ _ hk, getLsbD_not_and_mask _ _ hk]
  by_cases h : k < x.len
  · simp [h]
  · simp [h, wf.2 k hk (Nat.le_of_not_lt h)]

/-- What VNOT leaves in its destination. -/
theorem exec_vnot_vreg (vd : VNum) {va : VNum} {s : State} (ha : (s.vreg va).len ≠ 0) :
    ∃ t, exec (.vnot vd va) s = .next t ∧
      t.vreg vd = ⟨(s.vreg va).len, ~~~(s.vreg va).data &&& mask (s.vreg va).len⟩ :=
  ⟨_, execVnot_ok ha, s.vreg_setVreg_same vd _ _⟩

/-- Settles O13: one check, the complement bit by bit, and `RegWf.not_not` for VNOT of the result. -/
theorem vnotFollowsRule : Obligations.VnotFollowsRule := by
  refine fun vd va s => ⟨toNat_encode_vnot vd va, needVec_empty _, fun ha => ?_, fun ha wf vc => ?_⟩
  · exact ⟨_, fun k => getLsbD_not_and_mask _ _, execVnot_ok ha⟩
  · obtain ⟨t, ht, once⟩ := exec_vnot_vreg vd ha
    obtain ⟨u, hu, twice⟩ := exec_vnot_vreg (va := vd) (s := t) vc (by rwa [once])
    refine ⟨t, u, ht, hu, ?_⟩
    rw [twice, once, wf.not_not]

/-! ### natlen (rule R55) -/

/-- The natural length of a value that is not 0 is 1 plus the index of its highest set bit. -/
theorem natlen_spec {k : Data} (h : k ≠ 0) :
    ∃ i < 128, natlen k = 1 + i ∧ k.getLsbD i = true ∧ ∀ j, i < j → k.getLsbD j = false := by
  have nonzero : k.toNat ≠ 0 := fun e => h (BitVec.eq_of_toNat_eq (by simpa using e))
  have len : natlen k = 1 + k.toNat.log2 := if_neg h
  refine ⟨k.toNat.log2, (Nat.log2_lt nonzero).mpr k.isLt, len, Nat.testBit_log2 nonzero, fun j hj => ?_⟩
  exact getLsbD_of_natlen_le len.le (by omega)

/-! ### plusOne (rule R56) -/

/-- The low n + 1 bits of a value: the low n bits, and bit n above them. -/
theorem toNat_mod_two_pow_succ (v : Data) (n : Nat) :
    v.toNat % 2 ^ (n + 1) = v.toNat % 2 ^ n + 2 ^ n * (v.getLsbD n).toNat := by
  rw [Nat.mod_pow_succ, ← Nat.toNat_testBit, BitVec.testBit_toNat]

/-- The low i + 1 bits after bit i is made b: the low i bits as they were, and b on top. -/
theorem toNat_setBit_mod (v : Data) {i : Nat} (hi : i < 128) (b : Bool) :
    (setBit v i b).toNat % 2 ^ (i + 1) = v.toNat % 2 ^ i + 2 ^ i * b.toNat := by
  have low : (setBit v i b).toNat % 2 ^ i = v.toNat % 2 ^ i := by
    refine Nat.eq_of_testBit_eq fun k => ?_
    rw [Nat.testBit_mod_two_pow, Nat.testBit_mod_two_pow]
    by_cases hk : k < i
    · rw [BitVec.testBit_toNat, BitVec.testBit_toNat, getLsbD_setBit v i k b (by omega), if_neg (by omega)]
    · simp [hk]
  rw [toNat_mod_two_pow_succ, low, getLsbD_setBit v i i b hi, if_pos rfl]

/-- The loop's invariant: after n bits, the low n bits and the carry above them hold the low n bits of v plus 1. -/
theorem plusOneLoop_value (v : Data) {n : Nat} (hn : n ≤ 128) :
    (plusOneLoop v n).1.toNat % 2 ^ n + 2 ^ n * (plusOneLoop v n).2.toNat = v.toNat % 2 ^ n + 1 := by
  induction n with
  | zero => simp [plusOneLoop, Nat.mod_one]
  | succ n ih =>
    have halfAdder : ∀ b c : Bool, (b ^^ c).toNat + 2 * (b && c).toNat = b.toNat + c.toNat := by decide
    have bit : (plusOneLoop v n).1.getLsbD n = v.getLsbD n := getLsbD_plusOneLoop_of_le v le_rfl hn
    have carried := congrArg (2 ^ n * ·) (halfAdder (v.getLsbD n) (plusOneLoop v n).2)
    simp only [Nat.mul_add] at carried
    simp only [plusOneLoop, bit]
    rw [toNat_setBit_mod _ hn, toNat_mod_two_pow_succ v, Nat.pow_succ, Nat.mul_assoc]
    have := ih (Nat.le_of_succ_le hn)
    omega

theorem messageFits_of_toNat_lt {r : Nat} {m : Data} (h : m.toNat < 2 ^ (r + 1)) : MessageFits r m := fun _ hk =>
  Nat.testBit_lt_two_pow (h.trans_le (Nat.pow_le_pow_right (by decide) hk))

/-- `plusOne` on an n-bit value is the increment modulo 2^n: the final carry is dropped. -/
theorem toNat_plusOne {v : Data} {n : Nat} (hpos : 1 ≤ n) (hn : n ≤ 128) (hv : v.toNat < 2 ^ n) :
    (plusOne v n).toNat = (v.toNat + 1) % 2 ^ n := by
  have value := plusOneLoop_value v hn
  obtain ⟨r, rfl⟩ := Nat.exists_eq_succ_of_ne_zero (Nat.pos_iff_ne_zero.mp hpos)
  have fits : (plusOne v (r + 1)).toNat < 2 ^ (r + 1) := (messageFits_of_toNat_lt hv).plusOne.toNat_lt
  rw [Nat.mod_eq_of_lt hv] at value
  rw [← Nat.mod_eq_of_lt fits, ← value, Nat.add_mul_mod_self_left, Nat.mod_mod]
  rfl

/-- k increments of an n-bit counter that starts at 0. -/
theorem toNat_iterate_plusOne {n : Nat} (hpos : 1 ≤ n) (hn : n ≤ 128) (k : Nat) :
    ((fun v => plusOne v n)^[k] 0).toNat = k % 2 ^ n := by
  induction k with
  | zero => simp
  | succ k ih =>
    rw [Function.iterate_succ_apply', toNat_plusOne hpos hn (ih ▸ Nat.mod_lt _ (Nat.two_pow_pos n)), ih, Nat.mod_add_mod]

/-- Settles O15: the bits of `mask`, the highest set bit, and the counter's value after k increments. -/
theorem bitPrimitives : Obligations.BitPrimitives := by
  refine ⟨fun n _ i hi => by simp [hi], rfl, fun k => natlen_spec, fun n hpos hn => ⟨fun v => toNat_plusOne hpos hn, ?_, ?_⟩⟩
  · refine BitVec.eq_of_toNat_eq ?_
    rw [toNat_iterate_plusOne hpos hn, Nat.mod_self]
    rfl
  · intro k hk hlt back
    have value := toNat_iterate_plusOne hpos hn k
    rw [back, Nat.mod_eq_of_lt hlt] at value
    exact absurd value.symm (Nat.pos_iff_ne_zero.mp hk)

end Sys2Proof.Machine
end

section
/-! PROOFS. The entries of G, the bits of codewords in closed form, the checks of the code commands, and the statements of
41_encode.md about them. -/

namespace Sys2Proof.Machine

/-! ### The generator matrix (rules R63, R64) -/

/-- Bit i of c is 1 exactly in the upper half of each block of 2^(i+1). -/
theorem testBit_eq_decide_upper_half (c i : Nat) : c.testBit i = decide (2 ^ i ≤ c % 2 ^ (i + 1)) := by
  have split : c % 2 ^ (i + 1) = c % 2 ^ i + 2 ^ i * (c.testBit i).toNat := by
    rw [Nat.mod_pow_succ, Nat.toNat_testBit]
  have low : c % 2 ^ i < 2 ^ i := Nat.mod_lt c (Nat.two_pow_pos i)
  rw [split]
  cases c.testBit i
  · simpa using low
  · simp

/-- Row i < r has the period 2^(i+1). -/
theorem genMatrix_add_period {r i : Nat} (h : i < r) (c : Nat) :
    genMatrix r i (c + 2 ^ (i + 1)) = genMatrix r i c := by
  rw [genMatrix_below h, genMatrix_below h, testBit_eq_decide_upper_half, Nat.add_mod_right,
    ← testBit_eq_decide_upper_half]

/-- Column 2^i has its ones in rows i and r. -/
theorem genMatrix_two_pow {r j : Nat} (i : Nat) (h : j ≤ r) :
    genMatrix r j (2 ^ i) = (decide (j = i) || decide (j = r)) := by
  obtain rfl | below := h.eq_or_lt
  · simp [genMatrix_top]
  · rw [genMatrix_below below, Nat.testBit_two_pow, decide_eq_false below.ne, Bool.or_false]
    exact decide_eq_decide.mpr eq_comm

/-- Settles O16: the entries of G bit by bit; the rows of order 3 are evaluated. -/
theorem generatorMatrix : Obligations.GeneratorMatrix := by
  refine ⟨fun r _ _ c _ => ⟨genMatrix_top r c, fun i hi => genMatrix_below hi c⟩, fun r _ _ i hi => ?_, by decide⟩
  refine ⟨fun c => ?_, genMatrix_add_period hi, ?_, fun j => genMatrix_two_pow i⟩
  · rw [genMatrix_below hi, testBit_eq_decide_upper_half]
  · rw [genMatrix_below hi, Nat.zero_testBit]

/-! ### The bits of a codeword (rule R65) -/

/-- The exclusive or of the first n terms as a fold over their list. -/
theorem xorBelow_eq_foldl (f : Nat → Bool) (n : Nat) :
    xorBelow f n = ((List.range n).map f).foldl xor false := by
  induction n with
  | zero => rfl
  | succ n ih => simp [xorBelow_succ, ih, List.range_succ]

/-- The exclusive or of the bits below n is the parity of their count. -/
theorem xorBelow_getLsbD (v : Data) (n : Nat) : xorBelow v.getLsbD n = decide (popcountBelow v n % 2 = 1) := by
  induction n with
  | zero => rfl
  | succ n ih =>
    rw [xorBelow_succ, popcountBelow_succ, ih]
    cases v.getLsbD n
    · simp
    · simp only [Bool.xor_true, Bool.toNat_true, ← decide_not]
      exact decide_eq_decide.mpr (by omega)

/-- The first r rows of G contribute the parity of m[r-1:0] AND c. -/
theorem xorBelow_and_testBit {r : Nat} (hr : r ≤ 128) (m : Data) (c : Nat) :
    xorBelow (fun j => m.getLsbD j && c.testBit j) r =
      decide (popcount ((m &&& mask r) &&& BitVec.ofNat 128 c) % 2 = 1) := by
  have bits : ∀ j < r, (m.getLsbD j && c.testBit j) = (m &&& BitVec.ofNat 128 c).getLsbD j := fun j hj => by
    rw [BitVec.getLsbD_and, BitVec.getLsbD_ofNat, decide_eq_true (hj.trans_le hr), Bool.true_and]
  rw [xorBelow_congr bits, xorBelow_getLsbD, ← popcount_and_mask _ hr, BitVec.and_assoc, BitVec.and_assoc,
    BitVec.and_comm (mask r)]

/-- A bit of a codeword within its length. -/
theorem getLsbD_encf_of_lt {r c : Nat} (hr : r ≤ 7) (m : Data) (hc : c < 2 ^ r) :
    (encf r m).getLsbD c = encodeBit r m c := by
  rw [getLsbD_encf, decide_eq_true hc, decide_eq_true (hc.trans_le (endDim_le hr)), Bool.true_and, Bool.true_and]

/-- A codeword is 0 from its length on. -/
theorem getLsbD_encf_of_ge {r c : Nat} (m : Data) (hc : 2 ^ r ≤ c) : (encf r m).getLsbD c = false := by
  rw [getLsbD_encf, decide_eq_false (Nat.not_lt.mpr hc), Bool.false_and, Bool.false_and]

/-- Settles O17: the fold is the exclusive or of the model, and row r of G taken out of it leaves the parity. -/
theorem encodingFunctionBits : Obligations.EncodingFunctionBits := by
  refine fun r _ hr m c => ⟨fun hc => ?_, getLsbD_encf_of_ge m⟩
  rw [getLsbD_encf_of_lt hr m hc]
  refine ⟨xorBelow_eq_foldl _ _, ?_⟩
  rw [encodeBit_eq, xorBelow_and_testBit (hr.trans (by decide)), Bool.xor_comm]

/-! ### The codewords of 0 and of one bit (rule R66) -/

theorem encodeBit_zero (r c : Nat) : encodeBit r 0 c = false :=
  xorBelow_false fun j _ => by simp

/-- The message with bit j only is encoded as row j of G. -/
theorem encodeBit_bit {r j : Nat} (hr : r ≤ 7) (hj : j ≤ r) (c : Nat) :
    encodeBit r (1#128 <<< j) c = genMatrix r j c := by
  have bit : ∀ k < startDim r, (1#128 <<< j).getLsbD k = decide (k = j) := fun k hk =>
    getLsbD_bit j k (by rw [startDim] at hk; omega)
  have row : j < startDim r := Nat.lt_succ_of_le hj
  rw [encodeBit, xorBelow_single row fun k hk hne => by rw [bit k hk, decide_eq_false hne, Bool.false_and],
    bit j row, decide_eq_true rfl, Bool.true_and]

theorem encf_zero (r : Nat) : encf r 0 = 0 :=
  data_ext fun c _ => by
    rw [getLsbD_encf, encodeBit_zero, Bool.and_false]
    exact BitVec.getLsbD_zero.symm

/-- Row r of G is the all-one codeword. -/
theorem encf_top_bit {r : Nat} (hr : r ≤ 7) : encf r (1#128 <<< r) = mask (2 ^ r) :=
  tabulate_congr fun c _ => (encodeBit_bit hr le_rfl c).trans (genMatrix_top r c)

/-! ### The checks of the code commands (rules R62, R66, R69, R76, R82) -/

section
variable {va : VNum} {s : State} (hr : 1 ≤ s.order.toNat ∧ s.order.toNat ≤ 7)
include hr

theorem codeOperand_empty (n : Nat → Nat) (rest : Nat → Answer) (h : (s.vreg va).len = 0) :
    needOrder s (fun r => needVec va s (needLen va (n r) s (rest r))) = raiseError .emptyOperand s := by
  rw [needOrder_valid _ hr, needVec_empty _ h]

theorem codeOperand_differ (n : Nat → Nat) (rest : Nat → Answer) (held : (s.vreg va).len ≠ 0)
    (h : (s.vreg va).len ≠ n s.order.toNat) :
    needOrder s (fun r => needVec va s (needLen va (n r) s (rest r))) = raiseError .lengthMismatch s := by
  rw [needOrder_valid _ hr, needVec_held _ held, needLen_differ _ h]

end

/-! ### ENC -/

theorem toNat_encode_enc (vd va : VNum) : (encode (.enc vd va)).toNat = va.val * 2 ^ 8 + vd.val * 16 + 0x5 := by
  rw [encode, toNat_formatWord _ _ _ _ (by decide)]
  simp [Instr.opcode]

theorem execEnc_empty {vd va : VNum} {s : State} (hr : 1 ≤ s.order.toNat ∧ s.order.toNat ≤ 7)
    (h : (s.vreg va).len = 0) : execEnc vd va s = raiseError .emptyOperand s := codeOperand_empty hr startDim _ h

theorem execEnc_differ {vd va : VNum} {s : State} (hr : 1 ≤ s.order.toNat ∧ s.order.toNat ≤ 7)
    (held : (s.vreg va).len ≠ 0) (h : (s.vreg va).len ≠ startDim s.order.toNat) :
    execEnc vd va s = raiseError .lengthMismatch s := codeOperand_differ hr startDim _ held h

/-- Settles O18: the checks in their order, then the codewords of 0 and of one bit; order 1 is evaluated. -/
theorem encFollowsRule : Obligations.EncFollowsRule := by
  refine ⟨fun vd va s => ⟨toNat_encode_enc vd va, fun invalid => ?_, fun low high => ?_, fun low high => ?_,
    fun low high len => ?_⟩, fun r _ hr => ⟨encf_zero r, encf_top_bit hr, fun j hj c hc => ?_, by decide⟩⟩
  · exact exec_code_command_of_invalid_order invalid vd va List.mem_cons_self
  · exact execEnc_empty ⟨low, high⟩
  · exact execEnc_differ ⟨low, high⟩
  · exact execEnc_ok ⟨low, high⟩ len
  · rw [getLsbD_encf_of_lt hr _ hc, encodeBit_bit hr hj.le]

end Sys2Proof.Machine
end

section
/-! PROOFS. The bits of decoded messages, the two columns of G that DEC reads a codeword by, and the statements of
42_decode.md. -/

namespace Sys2Proof.Machine

/-! ### The bits of a decoded message (rule R68) -/

theorem getLsbD_decf_of_le {r i : Nat} (hr : r ≤ 7) (y : Data) (hi : i ≤ r) :
    (decf r y).getLsbD i = decodeBit r y i := by
  rw [getLsbD_decf, decide_eq_true (Nat.lt_succ_of_le hi), decide_eq_true (show i < 128 by omega), Bool.true_and,
    Bool.true_and]

theorem decodeBit_top (r : Nat) (y : Data) : decodeBit r y r = y.getLsbD 0 := if_pos rfl

theorem decodeBit_below {r i : Nat} (y : Data) (hi : i < r) :
    decodeBit r y i = (y.getLsbD 0 ^^ y.getLsbD (2 ^ i)) := by
  rw [decodeBit, if_neg hi.ne, genMatrix_top, Bool.and_true]

theorem messageFits_decf (r : Nat) (y : Data) : MessageFits r (decf r y) := fun k hk => by
  rw [getLsbD_decf, ← startDim_eq, decide_eq_false (Nat.not_lt.mpr hk), Bool.false_and, Bool.false_and]

/-! ### DECF on codewords (rule R68) -/

/-- Position 0 of a codeword holds bit r of the message. -/
theorem encodeBit_at_zero (r : Nat) (m : Data) : encodeBit r m 0 = m.getLsbD r := by
  rw [encodeBit_eq, xorBelow_false fun j _ => by rw [Nat.zero_testBit, Bool.and_false], Bool.false_xor]

/-- Position 2^i of a codeword holds the exclusive or of the bits i and r of the message. -/
theorem encodeBit_at_two_pow {r i : Nat} (m : Data) (hi : i < r) :
    encodeBit r m (2 ^ i) = (m.getLsbD i ^^ m.getLsbD r) := by
  have others : ∀ j < r, j ≠ i → (m.getLsbD j && (2 ^ i).testBit j) = false := fun j _ hne => by
    rw [Nat.testBit_two_pow, decide_eq_false hne.symm, Bool.and_false]
  rw [encodeBit_eq, xorBelow_single hi others, Nat.testBit_two_pow_self, Bool.and_true]

/-- Bit r is read at position 0, and its exclusive or with position 2^i leaves bit i. -/
theorem decodeBit_encf {r i : Nat} (hr : r ≤ 7) (m : Data) (hi : i ≤ r) : decodeBit r (encf r m) i = m.getLsbD i := by
  have at_zero : (encf r m).getLsbD 0 = m.getLsbD r := by
    rw [getLsbD_encf_of_lt hr m (Nat.two_pow_pos r), encodeBit_at_zero]
  obtain rfl | below := hi.eq_or_lt
  · rw [decodeBit_top, at_zero]
  · have column : 2 ^ i < 2 ^ r := Nat.pow_lt_pow_right (by decide) below
    rw [decodeBit_below _ below, at_zero, getLsbD_encf_of_lt hr m column, encodeBit_at_two_pow m below, Bool.xor_comm,
      Bool.xor_assoc, Bool.xor_self, Bool.xor_false]

theorem decf_encf {r : Nat} {m : Data} (hr : r ≤ 7) (fits : MessageFits r m) : decf r (encf r m) = m :=
  data_ext fun k _ => by
    obtain hk | hk := Nat.lt_or_ge k (startDim r)
    · have le : k ≤ r := Nat.le_of_lt_succ hk
      rw [getLsbD_decf_of_le hr _ le, decodeBit_encf hr m le]
    · rw [messageFits_decf r _ k hk, fits k hk]

/-- Settles O20: the bits of DECF, and the columns 0 and 2^i of G for the inversion. -/
theorem decodingFunctionInverts : Obligations.DecodingFunctionInverts := by
  refine fun r _ hr => ⟨fun y => ⟨?_, fun i hi => ?_, messageFits_decf r y⟩, fun m hm => ?_⟩
  · rw [getLsbD_decf_of_le hr y le_rfl, decodeBit_top]
  · rw [getLsbD_decf_of_le hr y hi.le, decodeBit_below y hi]
  · exact decf_encf hr (messageFits_of_toNat_lt hm)

/-! ### DEC (rule R69) -/

theorem toNat_encode_dec (vd va : VNum) : (encode (.dec vd va)).toNat = va.val * 2 ^ 8 + vd.val * 16 + 0x6 := by
  rw [encode, toNat_formatWord _ _ _ _ (by decide)]
  simp [Instr.opcode]

theorem execDec_empty {vd va : VNum} {s : State} (hr : 1 ≤ s.order.toNat ∧ s.order.toNat ≤ 7)
    (h : (s.vreg va).len = 0) : execDec vd va s = raiseError .emptyOperand s := codeOperand_empty hr endDim _ h

theorem execDec_differ {vd va : VNum} {s : State} (hr : 1 ≤ s.order.toNat ∧ s.order.toNat ≤ 7)
    (held : (s.vreg va).len ≠ 0) (h : (s.vreg va).len ≠ endDim s.order.toNat) :
    execDec vd va s = raiseError .lengthMismatch s := codeOperand_differ hr endDim _ held h

/-- The zero vector is the codeword of 0. -/
theorem decf_zero {r : Nat} (hr : r ≤ 7) : decf r 0 = 0 :=
  calc decf r 0 = decf r (encf r 0) := by rw [encf_zero]
    _ = 0 := decf_encf hr (messageFits_zero r)

theorem messageFits_top_bit (r : Nat) : MessageFits r (1#128 <<< r) := by
  simpa using (messageFits_zero r).flip_top

/-- The all-ones vector is the codeword of bit r alone. -/
theorem decf_ones {r : Nat} (hr : r ≤ 7) : decf r (mask (2 ^ r)) = 1#128 <<< r := by
  rw [← encf_top_bit hr, decf_encf hr (messageFits_top_bit r)]

/-- The two bits of a message of order 1, as a number. -/
theorem toNat_decf_one (y : Data) :
    (decf 1 y).toNat = (y.getLsbD 0 ^^ y.getLsbD 1).toNat + 2 * (y.getLsbD 0).toNat := by
  have bit0 : (decf 1 y).getLsbD 0 = (y.getLsbD 0 ^^ y.getLsbD 1) := by
    rw [getLsbD_decf_of_le (by decide) y (by decide), decodeBit_below y (by decide), Nat.pow_zero]
  have bit1 : (decf 1 y).getLsbD 1 = y.getLsbD 0 := by
    rw [getLsbD_decf_of_le (by decide) y le_rfl, decodeBit_top]
  rw [← Nat.mod_eq_of_lt (messageFits_decf 1 y).toNat_lt, toNat_mod_two_pow_succ, toNat_mod_two_pow_succ, bit0, bit1]
  simp [Nat.mod_one]

/-- Settles O21: the checks in their order, then DECF on the codewords of 0 and of bit r, and the two bits of order 1. -/
theorem decFollowsRule : Obligations.DecFollowsRule := by
  refine ⟨fun vd va s => ⟨toNat_encode_dec vd va, fun invalid => ?_, fun low high => ?_, fun low high => ?_,
    fun low high len => ?_⟩, fun r _ hr => ⟨decf_zero hr, decf_ones hr, toNat_decf_one⟩⟩
  · exact exec_code_command_of_invalid_order invalid vd va (by simp)
  · exact execDec_empty ⟨low, high⟩
  · exact execDec_differ ⟨low, high⟩
  · exact execDec_ok ⟨low, high⟩ len

/-! ### DEC of an input that is no codeword (rule R70) -/

/-- What DEC leaves in its destination. -/
theorem exec_dec_vreg (vd : VNum) {va : VNum} {s : State} (hr : 1 ≤ s.order.toNat ∧ s.order.toNat ≤ 7)
    (len : (s.vreg va).len = 2 ^ s.order.toNat) :
    ∃ t, exec (.dec vd va) s = .next t ∧ t.errcode = 0 ∧
      t.vreg vd = ⟨s.order.toNat + 1, decf s.order.toNat (s.vreg va).data⟩ :=
  ⟨_, execDec_ok hr len, rfl, s.vreg_setVreg_same vd _ _⟩

/-- DECF reads the positions 0, 1, 2, 4, ..., 2^(r-1) only. -/
theorem decf_congr {r : Nat} {y z : Data} (zero : y.getLsbD 0 = z.getLsbD 0)
    (powers : ∀ i < r, y.getLsbD (2 ^ i) = z.getLsbD (2 ^ i)) : decf r y = decf r z :=
  tabulate_congr fun i hi => by
    obtain rfl | below := (Nat.le_of_lt_succ hi).eq_or_lt
    · rw [decodeBit_top, decodeBit_top, zero]
    · rw [decodeBit_below y below, decodeBit_below z below, zero, powers i below]

/-- Every recovered bit takes position 0 once, and no other position is flipped. -/
theorem decodeBit_flip_zero {r i : Nat} (y : Data) (hi : i ≤ r) : decodeBit r (y ^^^ 1) i = !decodeBit r y i := by
  have zero : (y ^^^ 1).getLsbD 0 = !y.getLsbD 0 := by simp
  obtain rfl | below := hi.eq_or_lt
  · rw [decodeBit_top, decodeBit_top, zero]
  · have kept : (y ^^^ 1).getLsbD (2 ^ i) = y.getLsbD (2 ^ i) := by simp
    rw [decodeBit_below _ below, decodeBit_below y below, zero, kept, Bool.not_xor]

/-- The rule's example at order 3: the codeword of the decoded message is at distance 3, and 0xFF is nearer. -/
theorem decf_not_nearest :
    decf 3 0xFE = 7 ∧ encf 3 7 = 0x96 ∧ hammingDist 0x96 0xFE 8 = 3 ∧ hammingDist 0xFF 0xFE 8 = 1 := by
  have fits : 8 ≤ 128 := by decide
  rw [hammingDist_eq _ _ fits, hammingDist_eq _ _ fits]
  decide

/-- Settles O22: DEC's success, the positions DECF reads, the flip at 0 and the example. -/
theorem decIgnoresOtherPositions : Obligations.DecIgnoresOtherPositions := by
  refine ⟨fun vd va s low high len => ?_, fun r _ hr y z => ⟨decf_congr, fun i hi => ?_⟩, decf_not_nearest⟩
  · obtain ⟨t, run, ok, result⟩ := exec_dec_vreg vd ⟨low, high⟩ len
    exact ⟨t, run, ok, congrArg VReg.data result⟩
  · rw [getLsbD_decf_of_le hr _ hi, getLsbD_decf_of_le hr y hi, decodeBit_flip_zero y hi]

end Sys2Proof.Machine
end

section
/-! PROOFS. The laws of the Hamming distance, the score and the implied distance, the order of the exhaustive search and its
winner, and the statements of 43_search.md about HDIST and SRCH. -/

namespace Sys2Proof.Machine

/-! ### The Hamming distance (rule R71) -/

/-- The count of ones as a count over the list of positions. -/
theorem popcountBelow_eq_countP (v : Data) (n : Nat) : popcountBelow v n = (List.range n).countP v.getLsbD := by
  induction n with
  | zero => rfl
  | succ n ih =>
    rw [popcountBelow_succ, ih, List.range_succ, List.countP_append, List.countP_singleton]
    cases v.getLsbD n <;> rfl

/-- An exclusive or has no more ones than its operands together. -/
theorem popcountBelow_xor_le (u v : Data) (n : Nat) :
    popcountBelow (u ^^^ v) n ≤ popcountBelow u n + popcountBelow v n := by
  induction n with
  | zero => exact Nat.le_refl 0
  | succ n ih =>
    have bit : ∀ b c : Bool, (b ^^ c).toNat ≤ b.toNat + c.toNat := by decide
    have := bit (u.getLsbD n) (v.getLsbD n)
    rw [popcountBelow_succ, popcountBelow_succ, popcountBelow_succ, BitVec.getLsbD_xor]
    omega

theorem hammingDist_le_length (a b : Data) {n : Nat} (hn : n ≤ 128) : hammingDist a b n ≤ n := by
  rw [hammingDist_eq a b hn]
  exact popcountBelow_le _ n

theorem hammingDist_comm (a b : Data) (n : Nat) : hammingDist a b n = hammingDist b a n := by
  rw [hammingDist, hammingDist, BitVec.xor_comm]

theorem hammingDist_triangle (a b c : Data) {n : Nat} (hn : n ≤ 128) :
    hammingDist a c n ≤ hammingDist a b n + hammingDist b c n := by
  have through_b : a ^^^ c = (a ^^^ b) ^^^ (b ^^^ c) := by
    rw [BitVec.xor_assoc, ← BitVec.xor_assoc b, BitVec.xor_self, BitVec.zero_xor]
  rw [hammingDist_eq a c hn, hammingDist_eq a b hn, hammingDist_eq b c hn, through_b]
  exact popcountBelow_xor_le _ _ n

section
variable {a b : Data} {n : Nat} (ha : RegWf ⟨n, a⟩) (hb : RegWf ⟨n, b⟩)
include ha hb

/-- On register contents the mask of the distance changes nothing. -/
theorem hammingDist_eq_popcount : hammingDist a b n = popcount (a ^^^ b) :=
  congrArg popcount ((and_mask_eq_iff _ n).mpr (ha.xor hb rfl).2)

theorem hammingDist_eq_zero_iff : hammingDist a b n = 0 ↔ a = b := by
  rw [hammingDist_eq_popcount ha hb, popcount, popcountBelow_eq_zero_iff]
  constructor
  · exact fun same => data_ext fun k hk => by simpa using same k hk
  · rintro rfl k -
    simp

end

theorem hammingDist_complement (a b : Data) {n : Nat} (hn : n ≤ 128) :
    hammingDist (~~~a &&& mask n) b n = n - hammingDist a b n := by
  have flipped : ∀ k < n, (~~~a &&& mask n).getLsbD k = !a.getLsbD k := fun k hk => by
    rw [getLsbD_not_and_mask a n (hk.trans_le hn), decide_eq_true hk, Bool.true_and]
  have := hammingDist_add_of_complement (y := b) hn flipped
  omega

/-- Settles O25: the count over positions, and the laws of the distance one by one. -/
theorem hammingDistanceLaws : Obligations.HammingDistanceLaws := by
  intro n a b c hn
  refine ⟨?_, hammingDist_le_length a b hn, hammingDist_comm a b n,
    fun ha hb => ⟨hammingDist_eq_zero_iff ha hb, hammingDist_eq_popcount ha hb⟩, hammingDist_triangle a b c hn,
    hammingDist_complement a b hn⟩
  rw [hammingDist_eq a b hn, popcountBelow_eq_countP]
  exact List.countP_congr fun k _ => by rw [BitVec.getLsbD_xor, Bool.bne_eq_xor]

/-! ### HDIST (rule R72) -/

theorem toNat_encode_hdist (va vb : VNum) :
    (encode (.hdist va vb)).toNat = vb.val * 2 ^ 12 + va.val * 2 ^ 8 + 0x7 := by
  rw [encode, toNat_formatWord _ _ _ _ (by decide)]
  simp [Instr.opcode]

/-- A distance written to a result register is read back. -/
theorem toNat_ofNat_hammingDist (a b : Data) (n : Nat) :
    (BitVec.ofNat 32 (hammingDist a b n)).toNat = hammingDist a b n :=
  toNat_ofNat_word ((hammingDist_le a b n).trans (by decide))

/-- Settles O26: the checks of two operands, then a distance that fits RESULT0. -/
theorem hdistFollowsRule : Obligations.HdistFollowsRule := by
  refine fun va vb s => ⟨toNat_encode_hdist va vb, twoOperands_empty _, twoOperands_differ _, fun ha same => ?_⟩
  have read := toNat_ofNat_hammingDist (s.vreg va).data (s.vreg vb).data (s.vreg va).len
  exact ⟨_, read, read.trans_le (hammingDist_le _ _ _), execHdist_ok ha same⟩

/-! ### The score and the implied distance (rule R73) -/

/-- The implied distance is the nearer of a codeword and its complement. -/
theorem impliedDist_score_eq_min (r : Nat) (c y : Data) : impliedDist r (score r c y) =
    min (hammingDist c y (endDim r) : Int) (endDim r - hammingDist c y (endDim r)) := by
  have value : score r c y = endDim r - 2 * (hammingDist c y (endDim r) : Int) := rfl
  by_cases positive : 0 ≤ score r c y
  · rw [impliedDist_score_nonneg positive]
    omega
  · rw [impliedDist_score_neg positive]
    omega

/-- Both divisions of the implied distance are exact. -/
theorem two_mul_impliedDist_score (r : Nat) (c y : Data) :
    2 * impliedDist r (score r c y) = endDim r - |score r c y| := by
  have value : score r c y = endDim r - 2 * (hammingDist c y (endDim r) : Int) := rfl
  by_cases positive : 0 ≤ score r c y
  · rw [impliedDist_score_nonneg positive, abs_of_nonneg positive]
    omega
  · rw [impliedDist_score_neg positive, abs_of_neg (not_le.mp positive)]
    omega

/-- Settles O27: the score by definition, with the distance between 0 and 2^r, and the two branches of the implied distance. -/
theorem scoreAndImpliedDistance : Obligations.ScoreAndImpliedDistance := by
  intro r _ hr c y
  have length : ((endDim r : Nat) : Int) = 2 ^ r := by simp [endDim]
  have value : score r c y = 2 ^ r - 2 * (hammingDist c y (endDim r) : Int) := length ▸ rfl
  have bound : (hammingDist c y (endDim r) : Int) ≤ 2 ^ r := by
    exact_mod_cast hammingDist_le_length c y (endDim_le hr)
  refine ⟨value, by omega, by omega, by omega, length ▸ impliedDist_score_eq_min r c y,
    length ▸ two_mul_impliedDist_score r c y, impliedDist_score_nonneg, fun negative => ?_⟩
  have complement := hammingDist_complement c y (endDim_le hr)
  rw [← endDim_eq, impliedDist_score_neg (not_le.mpr negative), complement]
  omega

/-! ### The order of the search (rules R74, R75) -/

/-- Candidate k of the enumeration, against the input y. -/
def candidateAt (r : Nat) (y : Data) (k : Nat) : Best := candidate r y (BitVec.ofNat 128 k)

/-- A number of at most r + 1 bits is held by the register. -/
theorem toNat_ofNat_message {r k : Nat} (hr : r ≤ 7) (hk : k < 2 ^ (r + 1)) : (BitVec.ofNat 128 k).toNat = k := by
  have := two_pow_succ_le_of_le hr
  rw [BitVec.toNat_ofNat]
  omega

/-- The k-th increment of the message 0 is the message k. -/
theorem iterate_plusOne_eq_ofNat {r k : Nat} (hr : r ≤ 7) (hk : k < 2 ^ (r + 1)) :
    (fun m => plusOne m (r + 1))^[k] 0 = BitVec.ofNat 128 k := by
  refine BitVec.eq_of_toNat_eq ?_
  rw [toNat_iterate_plusOne (by omega) (by omega), Nat.mod_eq_of_lt hk, toNat_ofNat_message hr hk]

/-- The increment after the last message wraps to 0. -/
theorem iterate_plusOne_wraps {r : Nat} (hr : r ≤ 7) : (fun m => plusOne m (r + 1))^[2 ^ (r + 1)] 0 = 0 := by
  refine BitVec.eq_of_toNat_eq ?_
  rw [toNat_iterate_plusOne (by omega) (by omega), Nat.mod_self]
  rfl

/-- The loop of the search as a fold over the messages it visits. -/
theorem searchLoop_eq_foldl (r : Nat) (y : Data) (n : Nat) (m : Data) (best : Best) :
    searchLoop r y n m best =
      ((List.range n).map fun k => candidate r y ((fun m => plusOne m (r + 1))^[k] m)).foldl keepFirst best := by
  induction n generalizing m best with
  | zero => rfl
  | succ n ih =>
    rw [searchLoop, ih, List.range_succ_eq_map, List.map_cons, List.foldl_cons, List.map_map]
    rfl

theorem searchBest_eq_foldl {r : Nat} (hr : r ≤ 7) (y : Data) : searchBest r y =
    ((List.range (2 ^ (r + 1) - 1)).map fun k => candidateAt r y (k + 1)).foldl keepFirst (candidateAt r y 0) := by
  rw [searchBest, searchLoop_eq_foldl]
  congr 1
  refine List.map_congr_left fun k hk => ?_
  have inside : k + 1 < 2 ^ (r + 1) := by
    have := List.mem_range.mp hk
    rw [startDim] at this
    omega
  exact congrArg (candidate r y) (iterate_plusOne_eq_ofNat hr inside)

/-- Settles O28: the value of the counter after k increments, and the loop as a fold. -/
theorem searchEnumeratesInOrder : Obligations.SearchEnumeratesInOrder := fun _ _ hr =>
  ⟨fun _ => iterate_plusOne_eq_ofNat hr, iterate_plusOne_wraps hr, searchBest_eq_foldl hr⟩

/-! ### The winner of the search (rules R75, R77) -/

/-- k is the lowest of the indices below n at which the distance is least. -/
def IsFirstMinimum (c : Nat → Best) (n k : Nat) : Prop :=
  k < n ∧ (∀ j < n, (c k).dist ≤ (c j).dist) ∧ ∀ j < k, (c k).dist < (c j).dist

/-- Keeping the first minimum along a list ends with its first minimum. -/
theorem exists_foldl_keepFirst (c : Nat → Best) (n : Nat) :
    ∃ k, ((List.range n).map fun j => c (j + 1)).foldl keepFirst (c 0) = c k ∧ IsFirstMinimum c (n + 1) k := by
  induction n with
  | zero => exact ⟨0, rfl, by omega, fun j hj => by rw [Nat.lt_one_iff.mp hj], by simp⟩
  | succ n ih =>
    obtain ⟨k, fold, hk, least, first⟩ := ih
    rw [List.range_succ, List.map_append, List.foldl_append, fold]
    obtain ⟨kept, nearer⟩ | ⟨kept, not_nearer⟩ := keepFirst_cases (c k) (c (n + 1))
    · have below : ∀ j < n + 1, (c (n + 1)).dist < (c j).dist := fun j hj => nearer.trans_le (least j hj)
      refine ⟨n + 1, kept, by omega, fun j hj => ?_, below⟩
      obtain lt | rfl := Nat.lt_succ_iff_lt_or_eq.mp hj
      · exact (below j lt).le
      · exact le_rfl
    · refine ⟨k, kept, by omega, fun j hj => ?_, first⟩
      obtain lt | rfl := Nat.lt_succ_iff_lt_or_eq.mp hj
      · exact least j lt
      · exact not_nearer

theorem exists_searchBest {r : Nat} (hr : r ≤ 7) (y : Data) :
    ∃ k, searchBest r y = candidateAt r y k ∧ IsFirstMinimum (candidateAt r y) (2 ^ (r + 1)) k := by
  rw [searchBest_eq_foldl hr]
  have count : 2 ^ (r + 1) - 1 + 1 = 2 ^ (r + 1) := Nat.sub_add_cancel (Nat.one_le_two_pow)
  exact count ▸ exists_foldl_keepFirst (candidateAt r y) (2 ^ (r + 1) - 1)

/-- Flipping bit r of a message below 2^r adds 2^r to it. -/
theorem ofNat_flip_top {r k : Nat} (hr : r ≤ 7) (hk : k < 2 ^ r) :
    BitVec.ofNat 128 k ^^^ 1#128 <<< r = BitVec.ofNat 128 (k + 2 ^ r) := by
  have disjoint : k + 2 ^ r = 2 ^ r ||| k := by
    rw [Nat.add_comm]
    simpa using Nat.two_pow_add_eq_or_of_lt hk 1
  refine data_ext fun j hj => ?_
  rw [BitVec.getLsbD_xor, getLsbD_bit r j hj, BitVec.getLsbD_ofNat, BitVec.getLsbD_ofNat, disjoint, Nat.testBit_or,
    Nat.testBit_two_pow]
  by_cases top : j = r
  · have inside : r < 128 := by omega
    simp [top, inside, Nat.testBit_lt_two_pow hk]
  · simp [top, Ne.symm top]

/-- The messages k and k + 2^r stand for complementary codewords, and imply one distance. -/
theorem dist_candidateAt_flip_top {r k : Nat} (hr : r ≤ 7) (y : Data) (hk : k < 2 ^ r) :
    (candidateAt r y (k + 2 ^ r)).dist = (candidateAt r y k).dist := by
  have sum := hammingDist_add_of_complement (y := y) (endDim_le hr)
    fun c hc => getLsbD_encf_flip_top hr (BitVec.ofNat 128 k) hc
  rw [ofNat_flip_top hr hk] at sum
  simp only [candidateAt, candidate, impliedDist_score_eq_min]
  omega

/-- The winner has bit r = 0, since the candidate without that bit comes earlier at the same distance. -/
theorem IsFirstMinimum.lt_two_pow {r k : Nat} {y : Data} (hr : r ≤ 7)
    (h : IsFirstMinimum (candidateAt r y) (2 ^ (r + 1)) k) : k < 2 ^ r := by
  obtain ⟨hk, -, first⟩ := h
  rw [Nat.pow_succ] at hk
  by_contra high
  have partner : k - 2 ^ r < 2 ^ r := by omega
  have same := dist_candidateAt_flip_top hr y partner
  rw [Nat.sub_add_cancel (not_lt.mp high)] at same
  have earlier := first (k - 2 ^ r) (Nat.sub_lt (by omega) (Nat.two_pow_pos r))
  exact absurd same earlier.ne

/-- The message returned for candidate k is k, or k + 2^r on the negative branch. -/
theorem searchMsg_candidateAt {r k : Nat} (hr : r ≤ 7) (y : Data) (hk : k < 2 ^ r) :
    searchMsg r (candidateAt r y k) = BitVec.ofNat 128 k ∨
    searchMsg r (candidateAt r y k) = BitVec.ofNat 128 (k + 2 ^ r) := by
  rw [searchMsg]
  split
  · exact .inl rfl
  · exact .inr (ofNat_flip_top hr hk)

/-- The search returns the lowest candidate with the least implied distance, or its complement's message. -/
theorem srchf_lowest {r : Nat} (hr : r ≤ 7) (y : Data) :
    ∃ k < 2 ^ r, ((srchf r y).msg.toNat = k ∨ (srchf r y).msg.toNat = k + 2 ^ r) ∧
      (srchf r y).dist = (candidateAt r y k).dist ∧ IsFirstMinimum (candidateAt r y) (2 ^ (r + 1)) k := by
  obtain ⟨k, best, first⟩ := exists_searchBest hr y
  have hk := first.lt_two_pow hr
  refine ⟨k, hk, ?_, congrArg Best.dist best, first⟩
  have msg : (srchf r y).msg = searchMsg r (candidateAt r y k) := congrArg (searchMsg r) best
  rw [msg]
  obtain e | e := searchMsg_candidateAt hr y hk <;> rw [e]
  · exact .inl (toNat_ofNat_message hr (by rw [Nat.pow_succ]; omega))
  · exact .inr (toNat_ofNat_message hr (by rw [Nat.pow_succ]; omega))

/-! ### The distance and the codeword that SRCHF returns (rules R75 to R77) -/

/-- No distance returned is more than half the codeword length. -/
theorem srchf_dist_le_half {r : Nat} (hpos : 1 ≤ r) (hr : r ≤ 7) (y : Data) : (srchf r y).dist ≤ 2 ^ (r - 1) := by
  obtain ⟨k, -, -, dist, -⟩ := srchf_lowest hr y
  have exact_half := two_mul_impliedDist_score r (encf r (BitVec.ofNat 128 k)) y
  have magnitude := abs_nonneg (score r (encf r (BitVec.ofNat 128 k)) y)
  have half : (endDim r : Int) = 2 * 2 ^ (r - 1) := by
    rw [← pow_succ', Nat.sub_add_cancel hpos]
    simp [endDim]
  rw [dist]
  simp only [candidateAt, candidate]
  omega

/-- No codeword is nearer to the input than the distance returned. -/
theorem srchf_dist_le {r : Nat} (hr : r ≤ 7) (y : Data) {m : Data} (hm : m.toNat < 2 ^ (r + 1)) :
    (srchf r y).dist ≤ hammingDist (encf r m) y (endDim r) := by
  obtain ⟨k, -, -, dist, -, least, -⟩ := srchf_lowest hr y
  have visited : (candidateAt r y m.toNat).dist = impliedDist r (score r (encf r m) y) := by
    rw [candidateAt, BitVec.ofNat_toNat, BitVec.setWidth_eq]
    rfl
  calc (srchf r y).dist ≤ (candidateAt r y m.toNat).dist := dist.trans_le (least _ hm)
    _ = min _ _ := visited.trans (impliedDist_score_eq_min r _ y)
    _ ≤ hammingDist (encf r m) y (endDim r) := min_le_left _ _

/-- A codeword is returned with its message, at distance 0. -/
theorem srchf_encf {r : Nat} (hr : r ≤ 7) {m : Data} (hm : m.toNat < 2 ^ (r + 1)) :
    (srchf r (encf r m)).msg = m ∧ (srchf r (encf r m)).dist = 0 := by
  obtain ⟨fits, code, dist⟩ := srchf_spec hr (encf r m)
  have self : hammingDist (encf r m) (encf r m) (endDim r) = 0 :=
    (hammingDist_eq_zero_iff (regWf_encf hr m) (regWf_encf hr m)).mpr rfl
  have le_zero := srchf_dist_le hr (encf r m) hm
  rw [self] at le_zero
  have zero : hammingDist (srchf r (encf r m)).codeword (encf r m) (endDim r) = 0 := by omega
  refine ⟨?_, by rw [dist, zero]; rfl⟩
  rw [code, hammingDist_eq_zero_iff (regWf_encf hr _) (regWf_encf hr m)] at zero
  calc (srchf r (encf r m)).msg = decf r (encf r (srchf r (encf r m)).msg) := (decf_encf hr fits).symm
    _ = m := by rw [zero, decf_encf hr (messageFits_of_toNat_lt hm)]

/-- At order 1 every vector of two bits is a codeword. -/
theorem encf_decf_one {y : Data} (hy : y.toNat < 4) : encf 1 (decf 1 y) = y := by
  have top : (decf 1 y).getLsbD 1 = y.getLsbD 0 := by
    rw [getLsbD_decf_of_le (by decide) y le_rfl, decodeBit_top]
  have low : (decf 1 y).getLsbD 0 = (y.getLsbD 0 ^^ y.getLsbD 1) := by
    rw [getLsbD_decf_of_le (by decide) y (by decide), decodeBit_below y (by decide), Nat.pow_zero]
  refine data_ext fun c _ => ?_
  match c with
  | 0 => rw [getLsbD_encf_of_lt (by decide) _ (by decide), encodeBit_at_zero, top]
  | 1 =>
    have column := encodeBit_at_two_pow (r := 1) (i := 0) (decf 1 y) (by decide)
    rw [Nat.pow_zero] at column
    rw [getLsbD_encf_of_lt (by decide) _ (by decide), column, top, low, Bool.xor_comm, ← Bool.xor_assoc, Bool.xor_self,
      Bool.false_xor]
  | c + 2 =>
    have above : (c + 2) ≥ 2 ^ 1 := by omega
    rw [getLsbD_encf_of_ge _ above]
    exact (Nat.testBit_lt_two_pow (hy.trans_le (Nat.pow_le_pow_right (n := 2) (by decide) above))).symm

/-- So at order 1 the search returns its input. -/
theorem srchf_codeword_of_order_one {y : Data} (hy : y.toNat < 4) : (srchf 1 y).codeword = y := by
  obtain ⟨-, code, -⟩ := srchf_spec (r := 1) (by decide) y
  have msg := (srchf_encf (by decide) (messageFits_decf 1 y).toNat_lt).1
  rw [encf_decf_one hy] at msg
  rw [code, msg, encf_decf_one hy]

/-! ### SRCH (rule R76) -/

theorem toNat_encode_srch (vd va : VNum) : (encode (.srch vd va)).toNat = va.val * 2 ^ 8 + vd.val * 16 + 0x8 := by
  rw [encode, toNat_formatWord _ _ _ _ (by decide)]
  simp [Instr.opcode]

theorem execSrch_empty {vd va : VNum} {s : State} (hr : 1 ≤ s.order.toNat ∧ s.order.toNat ≤ 7)
    (h : (s.vreg va).len = 0) : execSrch vd va s = raiseError .emptyOperand s := codeOperand_empty hr endDim _ h

theorem execSrch_differ {vd va : VNum} {s : State} (hr : 1 ≤ s.order.toNat ∧ s.order.toNat ≤ 7)
    (held : (s.vreg va).len ≠ 0) (h : (s.vreg va).len ≠ endDim s.order.toNat) :
    execSrch vd va s = raiseError .lengthMismatch s := codeOperand_differ hr endDim _ held h

/-- The message written to RESULT0 is read back. -/
theorem toNat_srchf_msg_word {r : Nat} (hr : r ≤ 7) (y : Data) :
    ((srchf r y).msg.setWidth 32).toNat = (srchf r y).msg.toNat := by
  have := (srchf_spec hr y).1.toNat_lt
  have := two_pow_succ_le_of_le hr
  rw [BitVec.toNat_setWidth]
  omega

/-- The distance written to RESULT1 is read back. -/
theorem toNat_srchf_dist_word {r : Nat} (hr : r ≤ 7) (y : Data) :
    ((BitVec.ofInt 32 (srchf r y).dist).toNat : Int) = (srchf r y).dist := by
  obtain ⟨-, -, written⟩ := srch_results hr y
  obtain ⟨-, -, dist⟩ := srchf_spec hr y
  rw [written, dist]

/-- Settles O32: the checks in their order, then what SRCHF returns, read back from RESULT0 and RESULT1. -/
theorem srchFollowsRule : Obligations.SrchFollowsRule := by
  intro vd va s r y
  refine ⟨toNat_encode_srch vd va, fun invalid => ?_, fun low high => execSrch_empty ⟨low, high⟩,
    fun low high => execSrch_differ ⟨low, high⟩, fun low high len => ?_⟩
  · exact exec_code_command_of_invalid_order invalid vd va (by simp)
  have message := toNat_srchf_msg_word high y
  have distance := toNat_srchf_dist_word high y
  obtain ⟨-, -, written⟩ := srch_results high y
  obtain ⟨fits, code, -⟩ := srchf_spec high y
  obtain ⟨k, hk, msg, -, -, least, first⟩ := srchf_lowest high y
  have half := srchf_dist_le_half low high y
  refine ⟨(srchf r y).msg.setWidth 32, BitVec.ofInt 32 (srchf r y).dist, ?_⟩
  rw [message, BitVec.ofNat_toNat, BitVec.setWidth_eq, ← code]
  refine ⟨fits.toNat_lt, rfl, ?_, distance, written, rfl, ?_, ?_, ?_,
    ⟨k, hk, msg, fun j hj => ⟨least j hj, first j⟩⟩, execSrch_ok ⟨low, high⟩ len⟩
  · rw [← distance] at half
    exact_mod_cast half
  · intro m hm input
    obtain ⟨same, zero⟩ := srchf_encf high hm
    rw [← input] at same zero
    exact ⟨congrArg _ same, by rw [zero]; rfl⟩
  · intro one small
    rw [one]
    exact srchf_codeword_of_order_one small
  · rw [code, decf_encf high fits]

end Sys2Proof.Machine
end

section
/-! PROOFS. The sign matrix and its link to the code, the transform as the score of each candidate, the peak that FSRCHF picks,
its agreement with the exhaustive search, and the statements of 44_fast_search.md. -/

namespace Sys2Proof.Machine

/-! ### The sign matrix (rules R78, R79) -/

theorem signOf_eq_neg_one_pow (b : Bool) : signOf b = (-1) ^ b.toNat := by
  cases b <;> rfl

/-- The sign of a parity. -/
theorem signOf_decide_odd (n : Nat) : signOf (decide (n % 2 = 1)) = (-1) ^ n := by
  rw [neg_one_pow_eq_pow_mod_two]
  obtain even | odd := Nat.mod_two_eq_zero_or_one n
  · rw [even]
    rfl
  · rw [odd]
    rfl

/-- H(k+1) is H(k) in each quadrant, negated in the bottom right one. -/
theorem signMatrix_succ (k i j : Nat) : signMatrix (k + 1) i j =
    signOf (decide (2 ^ k ≤ i) && decide (2 ^ k ≤ j)) * signMatrix k (i % 2 ^ k) (j % 2 ^ k) := by
  rw [signMatrix, ← Bool.decide_and]
  split
  · next bottom_right => simp [bottom_right, signOf]
  · next other => simp [other, signOf]

/-- The rows of the upper half repeat the rows of H(k). -/
theorem signMatrix_upper {k i : Nat} (hi : i < 2 ^ k) (j : Nat) :
    signMatrix (k + 1) i j = signMatrix k i (j % 2 ^ k) := by
  rw [signMatrix_succ, decide_eq_false (Nat.not_le.mpr hi), Bool.false_and, Nat.mod_eq_of_lt hi]
  exact one_mul _

/-- The rows of the lower half repeat them with the right half negated. -/
theorem signMatrix_lower {k i : Nat} (hi : i < 2 ^ k) (j : Nat) :
    signMatrix (k + 1) (i + 2 ^ k) j = signOf (decide (2 ^ k ≤ j)) * signMatrix k i (j % 2 ^ k) := by
  rw [signMatrix_succ, decide_eq_true (Nat.le_add_left _ _), Bool.true_and, Nat.add_mod_right, Nat.mod_eq_of_lt hi]

/-- An entry is the sign of the parity of the common bits of its row and column: each level of the recursion looks at one
bit. -/
theorem signMatrix_eq_signOf {k i j : Nat} (hi : i < 2 ^ k) (hj : j < 2 ^ k) :
    signMatrix k i j = signOf (xorBelow (fun b => j.testBit b && i.testBit b) k) := by
  induction k generalizing i j with
  | zero => rfl
  | succ k ih =>
    have top : ∀ {n : Nat}, n < 2 ^ (k + 1) → n.testBit k = decide (2 ^ k ≤ n) := fun {n} hn => by
      rw [testBit_eq_decide_upper_half, Nat.mod_eq_of_lt hn]
    have low : ∀ n : Nat, ∀ b < k, (n % 2 ^ k).testBit b = n.testBit b := fun n b hb => by
      rw [Nat.testBit_mod_two_pow, decide_eq_true hb, Bool.true_and]
    rw [signMatrix_succ, ih (Nat.mod_lt _ (Nat.two_pow_pos k)) (Nat.mod_lt _ (Nat.two_pow_pos k)), signOf_mul_signOf,
      xorBelow_succ, top hi, top hj, xorBelow_congr fun b hb => by rw [low i b hb, low j b hb], Bool.xor_comm,
      Bool.and_comm (decide (2 ^ k ≤ i))]

theorem signMatrix_comm {k i j : Nat} (hi : i < 2 ^ k) (hj : j < 2 ^ k) : signMatrix k i j = signMatrix k j i := by
  rw [signMatrix_eq_signOf hi hj, signMatrix_eq_signOf hj hi, xorBelow_congr fun b _ => Bool.and_comm _ _]

/-- The product of two columns is the column of the exclusive or of their numbers. -/
theorem signMatrix_mul_signMatrix {k x i j : Nat} (hx : x < 2 ^ k) (hi : i < 2 ^ k) (hj : j < 2 ^ k) :
    signMatrix k x i * signMatrix k x j = signMatrix k x (i ^^^ j) := by
  rw [signMatrix_eq_signOf hx hi, signMatrix_eq_signOf hx hj, signMatrix_eq_signOf hx (Nat.xor_lt_two_pow hi hj),
    signOf_mul_signOf, ← xorBelow_xor]
  exact congrArg signOf (xorBelow_congr fun b _ => by rw [Nat.testBit_xor, Bool.and_xor_distrib_right])

/-- Column 0 is all ones, and every other column has as many ones as minus ones. -/
theorem sum_signMatrix_column {k j : Nat} (hj : j < 2 ^ k) :
    ∑ x ∈ Finset.range (2 ^ k), signMatrix k x j = if j = 0 then 2 ^ k else 0 := by
  induction k generalizing j with
  | zero => simp [Nat.lt_one_iff.mp hj, signMatrix]
  | succ k ih =>
    have halves : ∑ x ∈ Finset.range (2 ^ (k + 1)), signMatrix (k + 1) x j =
        (1 + signOf (decide (2 ^ k ≤ j))) * ∑ x ∈ Finset.range (2 ^ k), signMatrix k x (j % 2 ^ k) := by
      rw [Nat.pow_succ, Nat.mul_two, Finset.sum_range_add, add_mul, one_mul, Finset.mul_sum]
      refine congrArg₂ _ (Finset.sum_congr rfl fun x hx => signMatrix_upper (Finset.mem_range.mp hx) j)
        (Finset.sum_congr rfl fun x hx => ?_)
      rw [Nat.add_comm (2 ^ k) x, signMatrix_lower (Finset.mem_range.mp hx)]
    rw [halves]
    obtain left | right := Nat.lt_or_ge j (2 ^ k)
    · rw [decide_eq_false (Nat.not_le.mpr left), Nat.mod_eq_of_lt left, ih left, mul_ite, mul_zero, pow_succ', signOf]
      rfl
    · have nonzero : j ≠ 0 := ((Nat.two_pow_pos k).trans_le right).ne'
      rw [decide_eq_true right, if_neg nonzero]
      exact zero_mul _

/-- The columns are orthogonal: H·H = 2^r·I. -/
theorem sum_signMatrix_mul_signMatrix {k i j : Nat} (hi : i < 2 ^ k) (hj : j < 2 ^ k) :
    ∑ x ∈ Finset.range (2 ^ k), signMatrix k i x * signMatrix k x j = if i = j then 2 ^ k else 0 := by
  have column : ∀ x ∈ Finset.range (2 ^ k), signMatrix k i x * signMatrix k x j = signMatrix k x (i ^^^ j) :=
    fun x hx => by
      have hx := Finset.mem_range.mp hx
      rw [signMatrix_comm hi hx, signMatrix_mul_signMatrix hx hi hj]
  rw [Finset.sum_congr rfl column, sum_signMatrix_column (Nat.xor_lt_two_pow hi hj)]
  simp only [Nat.xor_eq_zero_iff]

/-- A bit of a message given as a number. -/
theorem getLsbD_ofNat_message {b : Nat} (hb : b < 128) (j : Nat) : (BitVec.ofNat 128 j).getLsbD b = j.testBit b := by
  rw [BitVec.getLsbD_ofNat, decide_eq_true hb, Bool.true_and]

/-- The closed form of rule R79, from the parity of the common bits. -/
theorem signMatrix_eq_neg_one_pow {r i j : Nat} (hr : r ≤ 7) (hi : i < 2 ^ r) (hj : j < 2 ^ r) :
    signMatrix r i j = (-1) ^ popcount (BitVec.ofNat 128 i &&& BitVec.ofNat 128 j) := by
  have bits : ∀ b < r, (j.testBit b && i.testBit b) = ((BitVec.ofNat 128 j).getLsbD b && i.testBit b) := fun b hb => by
    rw [getLsbD_ofNat_message (by omega)]
  have unmasked : BitVec.ofNat 128 j &&& mask r = BitVec.ofNat 128 j := (and_mask_eq_iff _ r).mpr fun b hb above => by
    rw [getLsbD_ofNat_message hb, Nat.testBit_lt_two_pow (hj.trans_le (Nat.pow_le_pow_right (by decide) above))]
  rw [signMatrix_eq_signOf hi hj, xorBelow_congr bits, xorBelow_and_testBit (by omega), unmasked, signOf_decide_odd,
    BitVec.and_comm]

/-- The link to the code: column j of H holds the signs of the codeword of j (rules R65, R79). -/
theorem signMatrix_eq_signOf_encf {r i j : Nat} (hr : r ≤ 7) (hi : i < 2 ^ r) (hj : j < 2 ^ r) :
    signMatrix r i j = signOf ((encf r (BitVec.ofNat 128 j)).getLsbD i) := by
  have bits : ∀ b < r, ((BitVec.ofNat 128 j).getLsbD b && i.testBit b) = (j.testBit b && i.testBit b) := fun b hb => by
    rw [getLsbD_ofNat_message (by omega)]
  rw [signMatrix_eq_signOf hi hj, getLsbD_encf_of_lt hr _ hi, encodeBit_eq, getLsbD_ofNat_message (by omega),
    Nat.testBit_lt_two_pow hj, Bool.xor_false, xorBelow_congr bits]

/-- Settles O33: H(1) is evaluated, the quadrants are those of the recursion, and the rest follows from the parity of the
common bits. The plain name `signMatrix` is the model's function. -/
theorem signMatrix_followsRules : Obligations.SignMatrix := by
  refine ⟨by decide, fun k hk _ i hi j hj => ?_, fun r _ hr i hi j hj => ⟨signMatrix_eq_neg_one_pow hr hi hj,
    signMatrix_comm hi hj, sum_signMatrix_mul_signMatrix hi hj, ?_⟩⟩
  · obtain ⟨k, rfl⟩ := Nat.exists_eq_add_of_le' (Nat.one_le_of_lt hk)
    rw [Nat.add_sub_cancel] at hi hj ⊢
    have left := decide_eq_false (Nat.not_le.mpr hj)
    have right := decide_eq_true (Nat.le_add_left (2 ^ k) j)
    rw [signMatrix_upper hi, signMatrix_upper hi, signMatrix_lower hi, signMatrix_lower hi, left, right,
      Nat.add_mod_right, Nat.mod_eq_of_lt hj]
    exact ⟨rfl, rfl, one_mul _, neg_one_mul _⟩
  · rw [signMatrix_eq_signOf_encf hr hi hj, signOf_eq_neg_one_pow]

/-! ### The transform (rule R80) -/

theorem transform_eq_sum (r : Nat) (y : Data) (j : Nat) :
    transform r y j = ∑ i ∈ Finset.range (2 ^ r), signOf (y.getLsbD i) * signMatrix r i j :=
  sumBelow_eq_sum _ _

/-- Each term is the sign of a position where the input and the candidate agree or differ, so the sum is the score. -/
theorem transform_eq_score {r j : Nat} (hr : r ≤ 7) (y : Data) (hj : j < 2 ^ r) :
    transform r y j = score r (encf r (BitVec.ofNat 128 j)) y := by
  have sign : ∀ i ∈ Finset.range (2 ^ r), signOf (y.getLsbD i) * signMatrix r i j =
      signOf ((encf r (BitVec.ofNat 128 j) ^^^ y).getLsbD i) := fun i hi => by
    rw [signMatrix_eq_signOf_encf hr (Finset.mem_range.mp hi) hj, signOf_mul_signOf, BitVec.getLsbD_xor, Bool.xor_comm]
  rw [transform_eq_sum, Finset.sum_congr rfl sign, ← sumBelow_eq_sum, sumBelow_signOf, score,
    hammingDist_eq _ _ (endDim_le hr), endDim_eq]

/-- Term i of the transform of y at j. -/
def transformTerm (r : Nat) (y : Data) (i j : Nat) : Int := signOf (y.getLsbD i) * signMatrix r i j

/-- The terms of two positions are orthogonal, because H·H = 2^r·I. -/
theorem sum_transformTerm_mul {r i k : Nat} (y : Data) (hi : i < 2 ^ r) (hk : k < 2 ^ r) :
    ∑ j ∈ Finset.range (2 ^ r), transformTerm r y i j * transformTerm r y k j = if i = k then 2 ^ r else 0 := by
  have product : ∀ j ∈ Finset.range (2 ^ r), transformTerm r y i j * transformTerm r y k j =
      signOf (y.getLsbD i ^^ y.getLsbD k) * (signMatrix r i j * signMatrix r j k) := fun j hj => by
    rw [transformTerm, transformTerm, mul_mul_mul_comm, signOf_mul_signOf, signMatrix_comm hk (Finset.mem_range.mp hj)]
  rw [Finset.sum_congr rfl product, ← Finset.mul_sum, sum_signMatrix_mul_signMatrix hi hk]
  split
  · next same => simp [same, signOf]
  · exact mul_zero _

/-- Parseval: the double sum over positions keeps its diagonal only. -/
theorem sum_transform_sq (r : Nat) (y : Data) :
    ∑ j ∈ Finset.range (2 ^ r), transform r y j ^ 2 = 2 ^ r * 2 ^ r := by
  have square : ∀ j, transform r y j ^ 2 = ∑ i ∈ Finset.range (2 ^ r), ∑ k ∈ Finset.range (2 ^ r),
      transformTerm r y i j * transformTerm r y k j := fun j => by
    rw [sq, transform_eq_sum, Finset.sum_mul_sum]
    rfl
  calc ∑ j ∈ Finset.range (2 ^ r), transform r y j ^ 2
      = ∑ i ∈ Finset.range (2 ^ r), ∑ k ∈ Finset.range (2 ^ r), ∑ j ∈ Finset.range (2 ^ r),
          transformTerm r y i j * transformTerm r y k j := by
        simp only [square]
        rw [Finset.sum_comm]
        exact Finset.sum_congr rfl fun i _ => Finset.sum_comm
    _ = ∑ i ∈ Finset.range (2 ^ r), ∑ k ∈ Finset.range (2 ^ r), if i = k then 2 ^ r else 0 :=
        Finset.sum_congr rfl fun i hi => Finset.sum_congr rfl fun k hk =>
          sum_transformTerm_mul y (Finset.mem_range.mp hi) (Finset.mem_range.mp hk)
    _ = ∑ i ∈ Finset.range (2 ^ r), 2 ^ r :=
        Finset.sum_congr rfl fun i hi => by rw [Finset.sum_ite_eq, if_pos hi]
    _ = 2 ^ r * 2 ^ r := by simp

/-- Some value of the transform reaches the mean of the squares. -/
theorem exists_two_pow_le_transform_sq (r : Nat) (y : Data) : ∃ j < 2 ^ r, 2 ^ r ≤ transform r y j ^ 2 := by
  have nonempty : (Finset.range (2 ^ r)).Nonempty := Finset.nonempty_range_iff.mpr (Nat.two_pow_pos r).ne'
  have mean : ∑ _j ∈ Finset.range (2 ^ r), (2 ^ r : Int) ≤ ∑ j ∈ Finset.range (2 ^ r), transform r y j ^ 2 := by
    rw [sum_transform_sq]
    simp
  obtain ⟨j, hj, large⟩ := Finset.exists_le_of_sum_le nonempty mean
  exact ⟨j, Finset.mem_range.mp hj, large⟩

theorem transform_ne_zero_of_two_pow_le_sq {r j : Nat} {y : Data} (h : 2 ^ r ≤ transform r y j ^ 2) :
    transform r y j ≠ 0 := fun zero => by
  rw [zero] at h
  exact absurd h (not_le.mpr (by positivity))

/-- A value of magnitude 2^r leaves nothing of the sum of squares to the others. -/
theorem transform_eq_zero_of_full_peak {r b j : Nat} {y : Data} (hb : b < 2 ^ r) (hj : j < 2 ^ r) (hne : j ≠ b)
    (full : |transform r y b| = 2 ^ r) : transform r y j = 0 := by
  have two : transform r y j ^ 2 + transform r y b ^ 2 ≤ 2 ^ r * 2 ^ r :=
    (Finset.add_le_sum (fun _ _ => sq_nonneg _) (Finset.mem_range.mpr hj) (Finset.mem_range.mpr hb) hne).trans_eq
      (sum_transform_sq r y)
  rw [← sq_abs (transform r y b), full, ← sq] at two
  exact pow_eq_zero_iff two_ne_zero |>.mp (le_antisymm (by omega) (sq_nonneg _))

/-- Settles O34: the sum with column j is the score of candidate j, whose range and parity are known, and Parseval gives a
large value. -/
theorem transformIsScore : Obligations.TransformIsScore := by
  refine fun r hpos hr y => ⟨fun j hj => ?_, ?_, ?_⟩
  · obtain ⟨value, low, high, parity, -⟩ := scoreAndImpliedDistance r hpos hr (encf r (BitVec.ofNat 128 j)) y
    rw [transform_eq_score hr y hj]
    exact ⟨(transform_eq_score hr y hj).symm.trans (transform_eq_sum r y j), low, high, parity, value, rfl⟩
  · rw [sum_transform_sq, ← pow_add, Nat.two_mul]
  · obtain ⟨j, hj, large⟩ := exists_two_pow_le_transform_sq r y
    exact ⟨j, hj, transform_ne_zero_of_two_pow_le_sq large, large⟩

/-! ### The peak (rule R81) -/

/-- b is the lowest index at which the transform of y has its largest magnitude. -/
def IsPeak (r : Nat) (y : Data) (b : Nat) : Prop :=
  b < 2 ^ r ∧ (∀ j < 2 ^ r, |transform r y j| ≤ |transform r y b|) ∧ ∀ j < b, |transform r y j| < |transform r y b|

theorem IsPeak.unique {r b c : Nat} {y : Data} (hb : IsPeak r y b) (hc : IsPeak r y c) : b = c := by
  obtain ⟨b_lt, b_max, b_first⟩ := hb
  obtain ⟨c_lt, c_max, c_first⟩ := hc
  obtain lt | rfl | gt := Nat.lt_trichotomy b c
  · exact absurd (c_first b lt) (not_lt.mpr (b_max c c_lt))
  · rfl
  · exact absurd (b_first c gt) (not_lt.mpr (c_max b b_lt))

theorem IsPeak.transform_ne_zero {r b : Nat} {y : Data} (h : IsPeak r y b) : transform r y b ≠ 0 := by
  obtain ⟨-, largest, -⟩ := h
  obtain ⟨j, hj, large⟩ := exists_two_pow_le_transform_sq r y
  exact abs_pos.mp ((abs_pos.mpr (transform_ne_zero_of_two_pow_le_sq large)).trans_le (largest j hj))

/-- The message that the sign of the value at b picks. -/
def peakMsg (r : Nat) (y : Data) (b : Nat) : Nat := if transform r y b < 0 then b + 2 ^ r else b

theorem peakMsg_mod {r b : Nat} (y : Data) (hb : b < 2 ^ r) : peakMsg r y b % 2 ^ r = b := by
  rw [peakMsg]
  split
  · rw [Nat.add_mod_right, Nat.mod_eq_of_lt hb]
  · exact Nat.mod_eq_of_lt hb

theorem two_pow_le_peakMsg_iff {r b : Nat} (y : Data) (hb : b < 2 ^ r) :
    2 ^ r ≤ peakMsg r y b ↔ transform r y b < 0 := by
  rw [peakMsg]
  split
  · next negative => exact iff_of_true (Nat.le_add_left _ _) negative
  · next positive => exact iff_of_false (Nat.not_le.mpr hb) positive

theorem exists_isPeak_fsrchf (r : Nat) (y : Data) :
    ∃ b, IsPeak r y b ∧ (fsrchf r y).peak = transform r y b ∧ (fsrchf r y).msg = peakMsg r y b := by
  obtain ⟨largest, first, inside⟩ := peakIndex_spec (transform r y) (endDim r)
  refine ⟨peakIndex (transform r y) (endDim r), ⟨inside (Nat.two_pow_pos r), fun j hj => ?_, fun j hj => ?_⟩, rfl, rfl⟩
  · rw [Int.abs_eq_natAbs, Int.abs_eq_natAbs]
    exact_mod_cast largest j hj
  · rw [Int.abs_eq_natAbs, Int.abs_eq_natAbs]
    exact_mod_cast first j hj

/-- Settles O35: `peakIndex` is at the lowest largest magnitude, which Parseval keeps from being 0. -/
theorem peakPicksMessage : Obligations.PeakPicksMessage := by
  intro r _ _ y
  obtain ⟨b, isPeak, peak, msg⟩ := exists_isPeak_fsrchf r y
  have nonzero := isPeak.transform_ne_zero
  obtain ⟨hb, largest, first⟩ := isPeak
  refine ⟨b, hb, largest, first, nonzero, peak, fun positive => ?_, fun negative => ?_, rfl⟩
  · rw [msg, peakMsg, if_neg positive.not_gt]
  · rw [msg, peakMsg, if_pos negative]

/-! ### Agreement with the exhaustive search (rule R83) -/

theorem natCast_endDim (r : Nat) : ((endDim r : Nat) : Int) = 2 ^ r := by
  simp [endDim]

/-- Twice the distance that candidate j < 2^r implies is 2^r less the magnitude of the transform at j. -/
theorem two_mul_dist_candidateAt {r j : Nat} (hr : r ≤ 7) (y : Data) (hj : j < 2 ^ r) :
    2 * (candidateAt r y j).dist = endDim r - |transform r y j| := by
  rw [transform_eq_score hr y hj]
  exact two_mul_impliedDist_score r _ y

/-- The lowest candidate with the least distance is the peak. -/
theorem IsFirstMinimum.isPeak {r k : Nat} {y : Data} (hr : r ≤ 7)
    (h : IsFirstMinimum (candidateAt r y) (2 ^ (r + 1)) k) : IsPeak r y k := by
  have hk := h.lt_two_pow hr
  obtain ⟨-, least, first⟩ := h
  have distance := two_mul_dist_candidateAt hr y hk
  refine ⟨hk, fun j hj => ?_, fun j hj => ?_⟩
  · have := least j (hj.trans (Nat.pow_lt_pow_right (by decide) (Nat.lt_succ_self r)))
    have := two_mul_dist_candidateAt hr y hj
    omega
  · have := first j hj
    have := two_mul_dist_candidateAt hr y (hj.trans hk)
    omega

/-- Both searches pick one candidate, and both branch on the sign of its score in the same way. -/
theorem srchf_agrees_fsrchf {r : Nat} (hr : r ≤ 7) (y : Data) :
    (srchf r y).msg = BitVec.ofNat 128 (fsrchf r y).msg ∧
    2 * (srchf r y).dist = endDim r - |(fsrchf r y).peak| := by
  obtain ⟨k, best, first⟩ := exists_searchBest hr y
  obtain ⟨b, isPeak, peak, msg⟩ := exists_isPeak_fsrchf r y
  obtain rfl := (first.isPeak hr).unique isPeak
  have hk := first.lt_two_pow hr
  have score_eq : (candidateAt r y k).score = transform r y k := (transform_eq_score hr y hk).symm
  have searched : (srchf r y).msg = searchMsg r (candidateAt r y k) := congrArg (searchMsg r) best
  have distance : (srchf r y).dist = (candidateAt r y k).dist := congrArg Best.dist best
  refine ⟨?_, by rw [distance, peak, two_mul_dist_candidateAt hr y hk]⟩
  rw [searched, msg, searchMsg, peakMsg, score_eq]
  split
  · next positive => rw [if_neg (not_lt.mpr positive)]; rfl
  · next negative => rw [if_pos (not_le.mp negative)]; exact ofNat_flip_top hr hk

/-- The two searches return one codeword. -/
theorem fsrchf_codeword {r : Nat} (hr : r ≤ 7) (y : Data) : (fsrchf r y).codeword = (srchf r y).codeword :=
  congrArg (encf r) (srchf_agrees_fsrchf hr y).1.symm

/-- The message written to RESULT0 is read back. -/
theorem toNat_fsrchf_msg_word {r : Nat} (hr : r ≤ 7) (y : Data) :
    (BitVec.ofNat 32 (fsrchf r y).msg).toNat = (fsrchf r y).msg :=
  toNat_ofNat_word ((fsrchf_spec r y).1.le.trans (two_pow_succ_le_of_le hr))

theorem toNat_srchf_msg {r : Nat} (hr : r ≤ 7) (y : Data) : (srchf r y).msg.toNat = (fsrchf r y).msg := by
  rw [(srchf_agrees_fsrchf hr y).1, toNat_ofNat_message hr (fsrchf_spec r y).1]

/-- Settles O37: both commands complete, with the results of `srchf_agrees_fsrchf`. -/
theorem fastSearchAgreesWithSearch : Obligations.FastSearchAgreesWithSearch := by
  intro vd va s low high len
  refine ⟨_, _, execSrch_ok ⟨low, high⟩ len, execFsrch_ok ⟨low, high⟩ len, ?_⟩
  obtain ⟨-, distance⟩ := srchf_agrees_fsrchf high (s.vreg va).data
  obtain ⟨-, -, peak, -⟩ := fsrch_results high (s.vreg va).data
  refine ⟨?_, ?_, peak, ?_⟩
  · simp only [State.setResults_v, State.setVreg_v, fsrchf_codeword high]
  · refine BitVec.eq_of_toNat_eq ?_
    simp only [State.setResults_result0]
    rw [toNat_fsrchf_msg_word high, toNat_srchf_msg_word high, toNat_srchf_msg high]
  · simp only [State.setResults_result1]
    rw [toNat_srchf_dist_word high, peak, ← natCast_endDim]
    omega

/-! ### FSRCH (rule R82) -/

theorem toNat_encode_fsrch (vd va : VNum) : (encode (.fsrch vd va)).toNat = va.val * 2 ^ 8 + vd.val * 16 + 0x9 := by
  rw [encode, toNat_formatWord _ _ _ _ (by decide)]
  simp [Instr.opcode]

theorem execFsrch_empty {vd va : VNum} {s : State} (hr : 1 ≤ s.order.toNat ∧ s.order.toNat ≤ 7)
    (h : (s.vreg va).len = 0) : execFsrch vd va s = raiseError .emptyOperand s := codeOperand_empty hr endDim _ h

theorem execFsrch_differ {vd va : VNum} {s : State} (hr : 1 ≤ s.order.toNat ∧ s.order.toNat ≤ 7)
    (held : (s.vreg va).len ≠ 0) (h : (s.vreg va).len ≠ endDim s.order.toNat) :
    execFsrch vd va s = raiseError .lengthMismatch s := codeOperand_differ hr endDim _ held h

/-- Of a codeword the transform is ±2^r at its message without bit r, with the sign of that bit, and 0 elsewhere: the
exhaustive search finds it at distance 0. -/
theorem fsrchf_encf {r : Nat} (hr : r ≤ 7) {m : Data} (hm : m.toNat < 2 ^ (r + 1)) :
    (fsrchf r (encf r m)).msg = m.toNat ∧
    (fsrchf r (encf r m)).peak = (if m.getLsbD r then -(2 ^ r) else 2 ^ r) ∧
    ∀ j < 2 ^ r, j ≠ m.toNat % 2 ^ r → transform r (encf r m) j = 0 := by
  obtain ⟨same, zero⟩ := srchf_encf hr hm
  have msg : (fsrchf r (encf r m)).msg = m.toNat := by rw [← toNat_srchf_msg hr, same]
  have full : |(fsrchf r (encf r m)).peak| = 2 ^ r := by
    have := (srchf_agrees_fsrchf hr (encf r m)).2
    rw [zero, natCast_endDim] at this
    omega
  obtain ⟨b, isPeak, peak, picked⟩ := exists_isPeak_fsrchf r (encf r m)
  obtain ⟨hb, -, -⟩ := isPeak
  have index : m.toNat % 2 ^ r = b := by rw [← msg, picked, peakMsg_mod _ hb]
  have sign := two_pow_le_peakMsg_iff (encf r m) hb
  rw [← picked, msg, ← peak] at sign
  have top : m.getLsbD r = decide (2 ^ r ≤ m.toNat) := by
    rw [← Nat.mod_eq_of_lt hm, ← testBit_eq_decide_upper_half]
    rfl
  refine ⟨msg, ?_, fun j hj hne => transform_eq_zero_of_full_peak hb hj (index ▸ hne) (peak ▸ full)⟩
  rw [top]
  by_cases complement : 2 ^ r ≤ m.toNat
  · rw [decide_eq_true complement, if_pos rfl, ← full, abs_of_neg (sign.mp complement), neg_neg]
  · rw [decide_eq_false complement, if_neg Bool.false_ne_true, ← full,
      abs_of_nonneg (not_lt.mp fun negative => complement (sign.mpr negative))]

/-- Settles O36: the checks in their order, then what FSRCHF returns, read back from RESULT0 and RESULT1. -/
theorem fsrchFollowsRule : Obligations.FsrchFollowsRule := by
  intro vd va s r y
  refine ⟨toNat_encode_fsrch vd va, fun invalid => ?_, fun low high => execFsrch_empty ⟨low, high⟩,
    fun low high => execFsrch_differ ⟨low, high⟩, fun low high len => ?_⟩
  · exact exec_code_command_of_invalid_order invalid vd va (by simp)
  have message := toNat_fsrchf_msg_word high y
  obtain ⟨fits, code, -⟩ := fsrchf_spec r y
  obtain ⟨-, -, value, -⟩ := fsrch_results high y
  obtain ⟨b, isPeak, peak, msg⟩ := exists_isPeak_fsrchf r y
  have nonzero := isPeak.transform_ne_zero
  obtain ⟨hb, largest, first⟩ := isPeak
  have index : (fsrchf r y).msg % 2 ^ r = b := msg ▸ peakMsg_mod y hb
  refine ⟨BitVec.ofNat 32 (fsrchf r y).msg, BitVec.ofInt 32 (fsrchf r y).peak, ?_⟩
  rw [message, value, index, ← code]
  refine ⟨fits, rfl, rfl, fun zero => ?_, ?_, peak, fun j hj => ⟨largest j hj, first j⟩, rfl, fun m hm input => ?_,
    execFsrch_ok ⟨low, high⟩ len⟩
  · rw [zero, peak] at value
    exact nonzero value.symm
  · rw [peak, msg]
    exact (two_pow_le_peakMsg_iff y hb).symm
  · rw [input]
    exact fsrchf_encf high hm

end Sys2Proof.Machine
end

section
/-! PROOFS. The error an answer reports, one rule per check, and the order of the checks: the statements of
60_exceptions.md. -/

namespace Sys2Proof.Machine

/-! ### The error an answer reports (rules R84 to R86)

Each check puts its own error before those of the rest of the command, so a command's row of rule R87's table is read off its
definition check by check. -/

/-- The answer is a next state that holds c in ERRCODE. -/
def Reports (a : Answer) (c : BitVec 8) : Prop := ∃ t, a = .next t ∧ t.errcode = c

theorem reports_raiseError (e : ErrorKind) (s : State) : Reports (raiseError e s) e.code := ⟨_, rfl, rfl⟩

theorem reports_complete (s : State) : Reports (complete s) 0 := ⟨_, rfl, rfl⟩

section
variable {s : State} {rest : Answer} {c : BitVec 8}

theorem reports_check {p : Prop} [Decidable p] (e : ErrorKind) (later : Reports rest c) :
    Reports (if p then raiseError e s else rest) (if p then e.code else c) := by
  by_cases h : p
  · rw [if_pos h, if_pos h]
    exact reports_raiseError e s
  · rwa [if_neg h, if_neg h]

theorem reports_needVec (i : VNum) (later : Reports rest c) :
    Reports (needVec i s rest) (if (s.vreg i).len = 0 then 8 else c) := reports_check .emptyOperand later

theorem reports_sameLen (a b : VNum) (later : Reports rest c) :
    Reports (sameLen a b s rest) (if (s.vreg a).len ≠ (s.vreg b).len then 2 else c) := reports_check .lengthMismatch later

theorem reports_needLen (i : VNum) (n : Nat) (later : Reports rest c) :
    Reports (needLen i n s rest) (if (s.vreg i).len ≠ n then 2 else c) := reports_check .lengthMismatch later

end

theorem reports_needOrder {s : State} {rest : Nat → Answer} {c : BitVec 8} (later : Reports (rest s.order.toNat) c) :
    Reports (needOrder s rest) (if s.order.toNat = 0 ∨ 7 < s.order.toNat then 5 else c) := by
  by_cases h : s.order.toNat = 0 ∨ 7 < s.order.toNat
  · rw [if_pos h, needOrder_invalid rest (by omega)]
    exact reports_raiseError .invalidOrder s
  · rwa [if_neg h, needOrder_valid rest (by omega)]

/-! ### The checks of a command in their order (rule R87) -/

/-- VXOR, VAND and HDIST: both operands, then their lengths. -/
theorem reports_twoOperands (va vb : VNum) (s u : State) :
    Reports (needVec va s (needVec vb s (sameLen va vb s (complete u))))
      (if (s.vreg va).len = 0 then 8 else if (s.vreg vb).len = 0 then 8
        else if (s.vreg va).len ≠ (s.vreg vb).len then 2 else 0) :=
  reports_needVec va (reports_needVec vb (reports_sameLen va vb (reports_complete u)))

/-- ENC, DEC, SRCH and FSRCH: the order, then the operand, then its length. -/
theorem reports_codeOperand (va : VNum) (s : State) (n : Nat → Nat) (u : Nat → State) :
    Reports (needOrder s fun r => needVec va s (needLen va (n r) s (complete (u r))))
      (if s.order.toNat = 0 ∨ 7 < s.order.toNat then 5 else if (s.vreg va).len = 0 then 8
        else if (s.vreg va).len ≠ n s.order.toNat then 2 else 0) :=
  reports_needOrder (reports_needVec va (reports_needLen va _ (reports_complete _)))

/-- Settles O38: an illegal word raises its one error, and every command's checks stand in the order of its row. -/
theorem errorPriority : Obligations.ErrorPriority := by
  refine fun vd va vb n s => ⟨fun w e illegal => ?_, ?load, fun i mem => ?_, ?vnot, ?enc, fun i mem => ?_⟩
  · rw [runCommand_error s illegal]
    exact reports_raiseError .illegalCommand s
  case load => exact reports_check .lengthOutOfRange (reports_check .sizeTooSmall (reports_complete _))
  · obtain rfl | rfl | rfl : i = .vxor vd va vb ∨ i = .vand vd va vb ∨ i = .hdist va vb := by simpa using mem
    all_goals exact reports_twoOperands va vb s _
  case vnot => exact reports_needVec va (reports_complete _)
  case enc =>
    rw [exec]
    exact reports_codeOperand va s startDim _
  · obtain rfl | rfl | rfl : i = .dec vd va ∨ i = .srch vd va ∨ i = .fsrch vd va := by simpa using mem
    all_goals
      rw [exec]
      exact reports_codeOperand va s endDim _

end Sys2Proof.Machine
end

section
/-! PROOFS. Writes while a command is in flight, what a step keeps until the command completes, and the statements of
70_reset_and_hazards.md about them. -/

namespace Sys2Proof.Machine

/-! ### Writes while a command is in flight (rule R103) -/

/-- At the offsets of ORDER, CMD and HDATA a busy write only sets OVR. -/
theorem portWrite_gated_busy {s : State} (busy : s.busy = true) {off : Nat}
    (h : off ∈ [0x008, 0x010, 0x020, 0x024, 0x028, 0x02C]) (x : Word) : portWrite off 4 x s = { s with ovr := true } := by
  have hdata (j : Fin 4) : portWrite (0x020 + 4 * j.val) 4 x s = { s with ovr := true } := by
    rw [portWrite_hdata, unlessBusy_busy _ busy]
  simp only [List.mem_cons, List.not_mem_nil, or_false] at h
  obtain rfl | rfl | rfl | rfl | rfl | rfl := h
  · rw [portWrite_order, unlessBusy_busy _ busy]
  · rw [portWrite_cmd, unlessBusy_busy _ busy]
  · exact hdata 0
  · exact hdata 1
  · exact hdata 2
  · exact hdata 3

/-- Every other offset but STATUS's is read-only or reserved, and a write there is ignored (rule R37). -/
theorem portWrite_not_writable {off : Nat} (aligned : off % 4 = 0)
    (h : off ∉ [0x008, 0x010, 0x014, 0x020, 0x024, 0x028, 0x02C]) (x : Word) (s : State) : portWrite off 4 x s = s := by
  have place : (off ∈ [0x000, 0x004, 0x00C, 0x018, 0x01C] ∨ 0x100 ≤ off) ∨ 0x030 ≤ off ∧ off < 0x100 := by
    simp only [List.mem_cons, List.not_mem_nil, or_false] at h ⊢
    omega
  obtain readOnly | reserved := place
  · exact portWrite_readOnly readOnly x s
  · exact portWrite_reserved (.inl reserved) 4 x s

/-- Settles O52: the gated offsets, STATUS, and all the others. -/
theorem busyWritesAreIgnored : Obligations.BusyWritesAreIgnored := by
  refine fun s off x _ aligned => ⟨fun busy h => portWrite_gated_busy busy h x, ?_,
    fun h => portWrite_not_writable aligned h x s⟩
  rintro rfl
  exact portWrite_status x s

/-! ### What a step keeps while a command is in flight (rule R104) -/

/-- t has CMDL and every register of s; of STATUS only ERR and OVR may differ. -/
structure KeepsRegisters (s t : State) : Prop where
  cmdl : t.cmdl = s.cmdl
  v : t.v = s.v
  result0 : t.result0 = s.result0
  result1 : t.result1 = s.result1
  errcode : t.errcode = s.errcode
  order : t.order = s.order
  hdata : t.hdata = s.hdata

/-- A step that neither completes the command in flight nor asserts reset serves at most one event, which keeps the
registers. -/
theorem step_keepsRegisters {s t : State} {w : Word} (inFlight : s.cmdl = some w) (notDue : s.wait ≠ 0)
    (noReset : s.inputs.head? ≠ some .resetAssert) (h : step s = .next t) : KeepsRegisters s t := by
  rw [step_waiting inFlight notDue, serveNext] at h
  split at h
  · cases h
    exact ⟨rfl, rfl, rfl, rfl, rfl, rfl, rfl⟩
  · next e rest hinputs =>
    have notAssert : e ≠ .resetAssert := by
      rintro rfl
      exact noReset (congrArg List.head? hinputs)
    obtain ⟨⟨hv, horder, hresult0, hresult1, herrcode, hhdata, hcmdl, -, -⟩, -, -⟩ :=
      serveEvent_busy (s := { s with wait := s.wait - 1, inputs := rest }) notAssert
        ((State.busy_iff _).mpr ⟨w, inFlight⟩) h
    exact ⟨hcmdl, hv, hresult0, hresult1, herrcode, horder, hhdata⟩

/-- STATUS stands at offset 0x014 only (rule R19). -/
theorem eq_of_regAt_status {off : Nat} (h : regAt off = .status) : off = 0x014 := by
  by_contra hne
  simp only [regAt, if_neg hne, ite_eq_iff, reduceCtorEq, and_false, or_false] at h

/-- STATUS holds ERRCODE in bits [15:8] (rule R25). -/
theorem getLsbD_statusWord_errcode (s : State) {k : Nat} (hlow : 8 ≤ k) (hhigh : k < 16) :
    s.statusWord.getLsbD k = s.errcode.getLsbD (k - 8) := by
  simp only [State.statusWord, BitVec.getLsbD_append]
  rw [if_neg (by omega), if_neg (by omega), if_neg (by omega), if_neg (by omega), if_pos (by omega)]
  rfl

section
variable {s t : State} (kept : KeepsRegisters s t)
include kept

/-- A register other than STATUS reads the same on two states with the same registers. -/
theorem KeepsRegisters.readReg_eq {reg : Reg} (h : reg ≠ .status) : readReg reg t = readReg reg s := by
  cases reg with
  | id | param | cmd | reserved => rfl
  | status => exact absurd rfl h
  | order => exact congrArg (BitVec.setWidth 32) kept.order
  | dims =>
    unfold readReg State.dimsWord State.orderValid State.orderNat
    rw [kept.order]
  | result0 => exact kept.result0
  | result1 => exact kept.result1
  | hdata j => exact congrArg (·[j]) kept.hdata
  | vregData k j | vregLen k => simp only [readReg, State.vreg, kept.v]

/-- Every offset but STATUS's reads the same. -/
theorem KeepsRegisters.portRead_eq {off : Nat} (h : off ≠ 0x014) (width : Nat) :
    portRead off width t = portRead off width s := by
  rw [portRead, portRead, kept.readReg_eq (mt eq_of_regAt_status h)]

end

/-- Settles O53: a step before the completion keeps the registers, and the reads follow from the registers. -/
theorem inFlightStateIsFixed : Obligations.InFlightStateIsFixed := by
  intro s t w inFlight notDue noReset h
  have kept := step_keepsRegisters inFlight notDue noReset h
  refine ⟨kept.cmdl.trans inFlight, kept.v, kept.result0, kept.result1, kept.errcode, kept.order, kept.hdata,
    fun off mem => kept.portRead_eq ?_ 4, fun off window _ => kept.portRead_eq (by omega) 4, fun k hlow hhigh => ?_⟩
  · rintro rfl
    exact absurd mem (by decide)
  · rw [portRead_status, portRead_status, getLsbD_statusWord_errcode t hlow hhigh,
      getLsbD_statusWord_errcode s hlow hhigh, kept.errcode]

end Sys2Proof.Machine
end

section
/-! PROOFS. Encoding and decoding are inverse to each other: the round trips of 30_encoding.md. -/

namespace Sys2Proof

/-- The command that a matching row gives has the word as its encoding: the row's masked fields are the format's. -/
theorem encode_command_of_hit {w : Word} {row : OpRow} (mem : row ∈ opRows) (hit : w &&& row.mask = row.pattern) :
    encode (row.command w) = w := by
  simp only [opRows, List.mem_cons, List.not_mem_nil, or_false] at mem
  obtain rfl | rfl | rfl | rfl | rfl | rfl | rfl | rfl | rfl := mem
  · exact ((hits_load w).mp hit).symm
  · exact ((hits_three 2 w).mp hit).symm
  · exact ((hits_three 3 w).mp hit).symm
  · exact ((hits_two 4 w).mp hit).symm
  · exact ((hits_two 5 w).mp hit).symm
  · exact ((hits_two 6 w).mp hit).symm
  · exact ((hits_hdist w).mp hit).symm
  · exact ((hits_two 8 w).mp hit).symm
  · exact ((hits_two 9 w).mp hit).symm

/-- A row gives well-formed commands only: LOAD's length is the 16 bits of IMM. -/
theorem wellFormed_command {row : OpRow} (mem : row ∈ opRows) (w : Word) : (row.command w).wellFormed = true := by
  simp only [opRows, List.mem_cons, List.not_mem_nil, or_false] at mem
  obtain rfl | rfl | rfl | rfl | rfl | rfl | rfl | rfl | rfl := mem
  · exact decide_eq_true (fieldIMM_lt w)
  all_goals rfl

/-- Settles O5: a word that decodes matches a row, and is the encoding of the command that the row gives. -/
theorem eachCommandHasOneWord : Obligations.EachCommandHasOneWord := by
  intro w i decoded
  obtain ⟨row, mem, hit, e⟩ | ⟨-, e⟩ := decode_cases w
  · obtain rfl := Except.ok.inj (e.symm.trans decoded)
    exact ⟨wellFormed_command mem w, encode_command_of_hit mem hit⟩
  · nomatch e.symm.trans decoded

/-! A formatted word matches the row of its shape and opcode. -/

theorem hit_formatWord_load (vd : VNum) {n : Nat} (h : n < 2 ^ 16) :
    formatWord 1 vd 0 0 n &&& 0x0000FF8F = 0x00000001 := (hits_load _).mpr (by simp [fieldIMM_formatWord _ _ _ _ h])

theorem hit_formatWord_three (op : BitVec 4) (vd va vb : VNum) :
    formatWord op vd va vb 0 &&& 0xFFFF888F = op.setWidth 32 := (hits_three op _).mpr (by simp)

theorem hit_formatWord_two (op : BitVec 4) (vd va : VNum) :
    formatWord op vd va 0 0 &&& 0xFFFFF88F = op.setWidth 32 := (hits_two op _).mpr (by simp)

theorem hit_formatWord_hdist (va vb : VNum) : formatWord 7 0 va vb 0 &&& 0xFFFF88FF = 0x00000007 :=
  (hits_hdist _).mpr (by simp)

/-- A command decodes from its word when row k of the map matches the word and reads the operands back. -/
theorem decode_encode_of_row (k : Fin 9) {i : Instr} (hit : encode i &&& opRows[k].mask = opRows[k].pattern)
    (operands : opRows[k].command (encode i) = i) : decode (encode i) = .ok i :=
  ((hit_iff_decode_ok (List.getElem_mem k.isLt) _).mp hit).trans (congrArg Except.ok operands)

/-- Settles O4: the word matches the row of its opcode, and its fields are the operands. -/
theorem decodeEncodeRoundTrip : Obligations.DecodeEncodeRoundTrip := by
  intro i wf
  cases i with
  | load vd n =>
    have fits : n < 2 ^ 16 := of_decide_eq_true wf
    exact decode_encode_of_row 0 (hit_formatWord_load vd fits)
      (congrArg₂ Instr.load (fieldVD_formatWord _ _ _ _ _) (fieldIMM_formatWord _ _ _ _ fits))
  | vxor vd va vb => exact decode_encode_of_row 1 (hit_formatWord_three 2 vd va vb) (by simp [opRows, encode])
  | vand vd va vb => exact decode_encode_of_row 2 (hit_formatWord_three 3 vd va vb) (by simp [opRows, encode])
  | vnot vd va => exact decode_encode_of_row 3 (hit_formatWord_two 4 vd va) (by simp [opRows, encode])
  | enc vd va => exact decode_encode_of_row 4 (hit_formatWord_two 5 vd va) (by simp [opRows, encode])
  | dec vd va => exact decode_encode_of_row 5 (hit_formatWord_two 6 vd va) (by simp [opRows, encode])
  | hdist va vb => exact decode_encode_of_row 6 (hit_formatWord_hdist va vb) (by simp [opRows, encode])
  | srch vd va => exact decode_encode_of_row 7 (hit_formatWord_two 8 vd va) (by simp [opRows, encode])
  | fsrch vd va => exact decode_encode_of_row 8 (hit_formatWord_two 9 vd va) (by simp [opRows, encode])

/-- Settles O1: each word is that of its command, and the round trip decodes it. -/
theorem specWordsDecode : Obligations.SpecWordsDecode :=
  ⟨decodeEncodeRoundTrip (.load 0 4) rfl, decodeEncodeRoundTrip (.vxor 3 1 2) rfl,
    decodeEncodeRoundTrip (.vand 3 1 2) rfl, decodeEncodeRoundTrip (.vnot 2 1) rfl, decodeEncodeRoundTrip (.enc 1 0) rfl,
    decodeEncodeRoundTrip (.dec 2 1) rfl, decodeEncodeRoundTrip (.hdist 1 2) rfl, decodeEncodeRoundTrip (.srch 2 1) rfl,
    decodeEncodeRoundTrip (.fsrch 2 1) rfl⟩

end Sys2Proof
end

section
/-! PROOFS. What a step does: a completion, or one event of the platform; which events are refused during reset; and the
invariant that every step keeps. -/

namespace Sys2Proof.Machine

/-! ### The two kinds of step (rules R42, R102) -/

/-- Settles O8: an error and a completion both end with no command in flight. -/
theorem everyCommandCompletes : Obligations.EveryCommandCompletes := by
  intro i s
  obtain ⟨e, -, raised⟩ | ⟨u, -, completed⟩ := exec_cases i s
  · exact ⟨_, raised, rfl⟩
  · exact ⟨_, completed, rfl⟩

/-- So the completion of any word answers a next state. -/
theorem exists_runCommand (w : Word) (s : State) : ∃ t, runCommand w s = .next t := by
  cases decoded : decode w with
  | ok i =>
    obtain ⟨t, run, -⟩ := everyCommandCompletes i s
    exact ⟨t, (runCommand_ok s decoded).trans run⟩
  | error e => exact ⟨_, runCommand_error s decoded⟩

/-- No completion is due: no command is in flight, or steps are still to pass. -/
def NotDue (s : State) : Prop := s.cmdl = none ∨ s.wait ≠ 0

/-- s one step nearer to the completion of the command in flight, if there is one. -/
def State.tick (s : State) : State := if s.cmdl = none then s else { s with wait := s.wait - 1 }

/-- Only the count to the completion is touched. -/
theorem State.tick_eq (s : State) : s.tick = { s with wait := s.tick.wait } := by
  unfold State.tick
  split <;> rfl

@[simp] theorem State.tick_inReset (s : State) : s.tick.inReset = s.inReset := by rw [tick_eq]
@[simp] theorem State.tick_inputs (s : State) : s.tick.inputs = s.inputs := by rw [tick_eq]
@[simp] theorem State.tick_cmdl (s : State) : s.tick.cmdl = s.cmdl := by rw [tick_eq]

theorem State.tick_wait {s : State} {w : Word} (h : s.cmdl = some w) : s.tick.wait = s.wait - 1 := by
  rw [State.tick, if_neg (by simp [h])]

/-- When no completion is due a step serves the port. -/
theorem step_notDue {s : State} (h : NotDue s) : step s = serveNext s.tick := by
  cases idle : s.cmdl with
  | none => rw [step_idle idle, State.tick, if_pos idle]
  | some w =>
    have notDue : s.wait ≠ 0 := h.resolve_left (by simp [idle])
    rw [step_waiting idle notDue, State.tick, if_neg (by simp [idle])]

/-- A step performs the command whose completion is due, or serves the port. -/
theorem step_cases (s : State) :
    (∃ w, s.cmdl = some w ∧ s.wait = 0 ∧ step s = runCommand w s) ∨ NotDue s ∧ step s = serveNext s.tick := by
  by_cases h : NotDue s
  · exact .inr ⟨h, step_notDue h⟩
  · obtain ⟨inFlight, due⟩ := not_or.mp h
    obtain ⟨w, hw⟩ := Option.ne_none_iff_exists'.mp inFlight
    exact .inl ⟨w, hw, not_not.mp due, step_due hw (not_not.mp due)⟩

theorem serveNext_nil {s : State} (h : s.inputs = []) : serveNext s = .next s := by
  simp [serveNext, h]

theorem serveNext_cons {s : State} {e : PortEvent} {rest : List PortEvent} (h : s.inputs = e :: rest) :
    serveNext s = serveEvent e { s with inputs := rest } := by
  simp [serveNext, h]

/-- Settles O7: the step that is due, and the one that serves the port. -/
theorem stepRunsDecodedCommand : Obligations.StepRunsDecodedCommand := by
  refine ⟨fun s w i inFlight due decoded => ?_, fun s notDue => ⟨fun empty => ?_, fun e rest head => ?_⟩⟩
  · rw [step_due inFlight due, runCommand_ok s decoded]
  · exact (step_notDue notDue).trans (serveNext_nil (s.tick_inputs.trans empty))
  · exact (step_notDue notDue).trans (serveNext_cons (s.tick_inputs.trans head))

/-! ### What is refused during reset (rule R99) -/

/-- An event by which the host reaches the window: a STATUS poll, or an access with its address in it. -/
def ReachesWindow (e : PortEvent) : Prop :=
  e = .pollIdle ∨ (∃ addr width off, e = .read addr width ∧ windowOffset addr = some off) ∨
    ∃ addr width x off, e = .write addr width x ∧ windowOffset addr = some off

theorem unlessReset_asserted {s : State} (after : State) (h : s.inReset = true) :
    unlessReset s after = .refused .accessDuringReset := if_pos h

theorem unlessReset_released {s : State} (after : State) (h : s.inReset = false) : unlessReset s after = .next after :=
  if_neg (by simp [h])

theorem serveEvent_read {addr off : Nat} (h : windowOffset addr = some off) (width : Nat) (s : State) :
    serveEvent (.read addr width) s = unlessReset s (s.serveRead off width) := by
  simp only [serveEvent, h]

theorem serveEvent_write {addr off : Nat} (h : windowOffset addr = some off) (width : Nat) (x : Word) (s : State) :
    serveEvent (.write addr width x) s = unlessReset s (s.serveWrite off width x) := by
  simp only [serveEvent, h]

theorem serveEvent_read_outside {addr : Nat} (h : windowOffset addr = none) (width : Nat) (s : State) :
    serveEvent (.read addr width) s = .next s := by
  simp only [serveEvent, h]

theorem serveEvent_write_outside {addr : Nat} (h : windowOffset addr = none) (width : Nat) (x : Word) (s : State) :
    serveEvent (.write addr width x) s = .next s := by
  simp only [serveEvent, h]

/-- While reset is asserted the host does not reach the window. -/
theorem serveEvent_asserted {s : State} {e : PortEvent} (h : s.inReset = true) (reaches : ReachesWindow e) :
    serveEvent e s = .refused .accessDuringReset := by
  obtain rfl | ⟨addr, width, off, rfl, inside⟩ | ⟨addr, width, x, off, rfl, inside⟩ := reaches
  · exact unlessReset_asserted _ h
  · rw [serveEvent_read inside, unlessReset_asserted _ h]
  · rw [serveEvent_write inside, unlessReset_asserted _ h]

/-- When a step is refused, and that this is the only reason. -/
theorem step_refused {s : State} {why : Refusal} (h : step s = .refused why) :
    why = .accessDuringReset ∧ s.inReset = true ∧ NotDue s ∧ ∃ e rest, s.inputs = e :: rest ∧ ReachesWindow e := by
  obtain ⟨w, -, -, run⟩ | ⟨notDue, serve⟩ := step_cases s
  · obtain ⟨t, ht⟩ := exists_runCommand w s
    nomatch (run.trans ht).symm.trans h
  rw [serve] at h
  cases inputs : s.inputs with
  | nil => nomatch (serveNext_nil (s.tick_inputs.trans inputs)).symm.trans h
  | cons e rest =>
    rw [serveNext_cons (s.tick_inputs.trans inputs)] at h
    obtain ⟨rfl, inReset, reaches⟩ := serveEvent_refused h
    exact ⟨rfl, s.tick_inReset ▸ inReset, notDue, e, rest, rfl, reaches⟩

/-- Settles O9: there is no fault to raise, and `step_refused` has `serveEvent_asserted` as its converse. -/
theorem stepStopsOnlyDuringReset : Obligations.StepStopsOnlyDuringReset := by
  refine fun s => ⟨(nomatch ·), fun why h => (step_refused h).1, fun h => (step_refused h).2, ?_⟩
  rintro ⟨inReset, notDue, e, rest, inputs, reaches⟩
  rw [step_notDue notDue, serveNext_cons (s.tick_inputs.trans inputs)]
  exact serveEvent_asserted (s.tick_inReset.trans inReset) reaches

/-! ### The invariant: commands (rules R14, R15, R26, R84) -/

/-- The codes that `exec_cases` lists are legal. -/
theorem errcode_legal_of_raised {e : ErrorKind}
    (h : e ∈ [ErrorKind.lengthMismatch, .sizeTooSmall, .invalidOrder, .lengthOutOfRange, .emptyOperand]) :
    e.code ∈ ([0, 2, 3, 5, 6, 7, 8] : List (BitVec 8)) := by
  revert e
  decide

/-- A command leaves a legal ERRCODE, whatever it was before (rule R84). -/
theorem errcodeLegal_exec {i : Instr} {s t : State} (h : exec i s = .next t) : ErrcodeLegal t := by
  obtain ⟨e, mem, raised⟩ | ⟨u, -, completed⟩ := exec_cases i s
  · rw [raiseError_next (raised.symm.trans h)]
    exact errcode_legal_of_raised mem
  · rw [complete_next (completed.symm.trans h)]
    exact List.mem_cons_self

/-- A small number written to a result register is no negative value. -/
theorem toInt_of_toNat_le {x : Word} (h : x.toNat ≤ 128) : x.toInt = x.toNat :=
  BitVec.toInt_eq_toNat_of_lt (by omega)

/-- A successful command writes results in range, or leaves them as they were (rule R26). -/
theorem Writes.resultsInRange {i : Instr} {s u : State} (w : Writes i s u) (h : ResultsInRange s) :
    ResultsInRange u := by
  cases w with
  | load | vxor | vand | vnot | enc | dec => exact h
  | @hdist va vb =>
    have read := toNat_ofNat_hammingDist (s.vreg va).data (s.vreg vb).data (s.vreg va).len
    exact ⟨read.trans_le ((hammingDist_le _ _ _).trans (by decide)), by simp⟩
  | @srch vd va _ _ hr _ =>
    obtain ⟨message, -, distance⟩ := srch_results hr (s.vreg va).data
    have signed := toInt_of_toNat_le (distance.trans_le (hammingDist_le _ _ _))
    have small := hammingDist_le (srchf s.order.toNat (s.vreg va).data).codeword (s.vreg va).data (endDim s.order.toNat)
    refine ⟨Nat.le_of_lt_succ (message.trans_le (two_pow_succ_le_of_le hr)), ?_⟩
    rw [State.setResults_result1, signed, distance]
    omega
  | @fsrch vd va _ _ hr _ =>
    obtain ⟨message, -, peak, low, high⟩ := fsrch_results hr (s.vreg va).data
    have length : (2 ^ s.order.toNat : Int) ≤ 128 := by exact_mod_cast endDim_le hr
    refine ⟨Nat.le_of_lt_succ (message.trans_le (two_pow_succ_le_of_le hr)), ?_⟩
    rw [State.setResults_result1, peak]
    omega

theorem resultsInRange_exec {i : Instr} {s t : State} (h : exec i s = .next t) (range : ResultsInRange s) :
    ResultsInRange t := by
  obtain ⟨e, rfl⟩ | ⟨u, w, rfl⟩ := exec_next h
  · exact range
  · exact w.resultsInRange range

/-- What a successful command writes: vector registers and results, nothing else. -/
theorem Writes.frame {i : Instr} {s u : State} (w : Writes i s u) :
    u = { s with v := u.v, result0 := u.result0, result1 := u.result1 } := by
  cases w <;> rfl

/-- A command writes vector registers, the results, ERRCODE, ERR and BUSY (rules R17, R26, R85, R86). -/
theorem exec_frame {i : Instr} {s t : State} (h : exec i s = .next t) :
    t = { s with v := t.v, result0 := t.result0, result1 := t.result1, errcode := t.errcode, err := t.err,
                 cmdl := none } := by
  obtain ⟨e, rfl⟩ | ⟨u, w, rfl⟩ := exec_next h
  · rfl
  · rw [w.frame]

/-! ### The invariant: completions, reset and events -/

/-- With reset released the invariant is a matter of the registers and of what a host has seen of BUSY. -/
theorem State.Inv.of_registers {s t : State} (inv : s.Inv) (v : t.v = s.v) (errcode : t.errcode = s.errcode)
    (result0 : t.result0 = s.result0) (result1 : t.result1 = s.result1) (released : t.inReset = false)
    (seen : IdleSeenHolds t) : t.Inv := by
  obtain ⟨wf, legal, range, -, -⟩ := inv
  refine ⟨fun k => ?_, ?_, ?_, fun asserted => ?_, seen⟩
  · rw [State.vreg, v]
    exact wf k
  · rwa [ErrcodeLegal, errcode]
  · rwa [ResultsInRange, result0, result1]
  · exact absurd (released.symm.trans asserted) Bool.false_ne_true

/-- A block in the state of rule R32 meets the invariant. -/
theorem inv_of_resetBlock_eq {s : State} (h : s.resetBlock = s) : s.Inv := by
  rw [← h]
  refine ⟨fun k => ?_, List.mem_cons_self, by simp [ResultsInRange], fun _ => rfl, fun _ => rfl⟩
  rw [State.vreg_resetBlock]
  exact ⟨by decide, fun _ _ _ => BitVec.getLsbD_zero⟩

/-- Settles O59: the state after reset is its own reset state. -/
theorem invariantAtReset : Obligations.InvariantAtReset := inv_of_resetBlock_eq rfl

/-- With a command in flight reset is not asserted. -/
theorem State.Inv.released {s : State} {w : Word} (h : s.Inv) (inFlight : s.cmdl = some w) : s.inReset = false := by
  obtain ⟨-, -, -, held, -⟩ := h
  by_contra asserted
  have idle : none = s.cmdl := congrArg State.cmdl (held (Bool.eq_true_of_not_eq_false asserted))
  nomatch idle.trans inFlight

/-- The invariant says nothing of what is still at the port. -/
theorem State.Inv.withInputs {s : State} (h : s.Inv) (inputs : List PortEvent) : State.Inv { s with inputs := inputs } := by
  obtain ⟨wf, legal, range, held, seen⟩ := h
  exact ⟨wf, legal, range, fun asserted => congrArg (fun t => { t with inputs := inputs }) (held asserted), seen⟩

/-- Nor of the count to a completion while a command is in flight. -/
theorem State.Inv.tick {s : State} (inv : s.Inv) : s.tick.Inv := by
  cases inFlight : s.cmdl with
  | none => rwa [State.tick, if_pos inFlight]
  | some w =>
    obtain ⟨-, -, -, -, seen⟩ := id inv
    rw [s.tick_eq]
    exact inv.of_registers rfl rfl rfl rfl (inv.released inFlight) seen

/-- A completion keeps the invariant: it leaves no command in flight. -/
theorem inv_runCommand {w : Word} {s t : State} (inv : s.Inv) (released : s.inReset = false)
    (h : runCommand w s = .next t) : t.Inv := by
  obtain ⟨wf, -, range, -, -⟩ := inv
  have notAsserted : ∀ {t : State}, t.inReset = s.inReset → ResetHeld t := fun same asserted =>
    absurd ((same.trans released).symm.trans asserted) Bool.false_ne_true
  cases decoded : decode w with
  | ok i =>
    have run : exec i s = .next t := (runCommand_ok s decoded).symm.trans h
    have frame := exec_frame run
    exact ⟨(commandsKeepVectorsWellFormed i s t run).1 wf, errcodeLegal_exec run, resultsInRange_exec run range,
      notAsserted (frame ▸ rfl), fun _ => frame ▸ rfl⟩
  | error e =>
    rw [raiseError_next ((runCommand_error s decoded).symm.trans h)]
    exact ⟨wf, by simp [ErrorKind.code], range, notAsserted rfl, fun _ => rfl⟩

theorem unlessReset_next {s after t : State} (h : unlessReset s after = .next t) : s.inReset = false ∧ t = after := by
  cases asserted : s.inReset with
  | true => nomatch (unlessReset_asserted after asserted).symm.trans h
  | false =>
    cases (unlessReset_released after asserted).symm.trans h
    exact ⟨rfl, rfl⟩

/-- A served read changes only what a host has seen of BUSY. -/
theorem State.Inv.serveRead {s : State} (inv : s.Inv) (released : s.inReset = false) (off width : Nat) :
    (s.serveRead off width).Inv := by
  obtain ⟨-, -, -, -, seen⟩ := id inv
  exact inv.of_registers rfl rfl rfl rfl released (idleSeenHolds_serveRead off width seen)

/-- A served write does not reach the registers of the invariant. -/
theorem State.Inv.serveWrite {s : State} (inv : s.Inv) (released : s.inReset = false) (off width : Nat) (x : Word) :
    (s.serveWrite off width x).Inv := by
  obtain ⟨-, -, -, -, seen⟩ := id inv
  obtain ⟨v, result0, result1, errcode, inReset, -, -⟩ := portWrite_keeps off width x s
  exact inv.of_registers v errcode result0 result1 (inReset.trans released) (idleSeenHolds_serveWrite off width x seen)

theorem inv_serveEvent {e : PortEvent} {s t : State} (inv : s.Inv) (h : serveEvent e s = .next t) : t.Inv := by
  cases e with
  | read addr width =>
    cases inside : windowOffset addr with
    | some off =>
      obtain ⟨released, rfl⟩ := unlessReset_next ((serveEvent_read inside width s).symm.trans h)
      exact inv.serveRead released off width
    | none =>
      cases (serveEvent_read_outside inside width s).symm.trans h
      exact inv
  | write addr width x =>
    cases inside : windowOffset addr with
    | some off =>
      obtain ⟨released, rfl⟩ := unlessReset_next ((serveEvent_write inside width x s).symm.trans h)
      exact inv.serveWrite released off width x
    | none =>
      cases (serveEvent_write_outside inside width x s).symm.trans h
      exact inv
  | pollIdle =>
    obtain ⟨released, rfl⟩ := unlessReset_next h
    split
    · exact (inv.serveRead released 0x014 4).withInputs _
    · exact inv.serveRead released 0x014 4
  | resetAssert =>
    cases h
    exact inv_of_resetBlock_eq rfl
  | resetRelease =>
    cases h
    obtain ⟨-, -, -, -, seen⟩ := id inv
    exact inv.of_registers rfl rfl rfl rfl rfl seen

/-- Settles O60: a step completes a command, with reset released, or serves the port. -/
theorem stepKeepsInvariant : Obligations.StepKeepsInvariant := by
  intro s t inv h
  obtain ⟨w, inFlight, -, run⟩ | ⟨-, serve⟩ := step_cases s
  · exact inv_runCommand inv (inv.released inFlight) (run.symm.trans h)
  rw [serve] at h
  cases inputs : s.inputs with
  | nil =>
    cases (serveNext_nil (s.tick_inputs.trans inputs)).symm.trans h
    exact inv.tick
  | cons e rest =>
    exact inv_serveEvent (inv.tick.withInputs rest) ((serveNext_cons (s.tick_inputs.trans inputs)).symm.trans h)

end Sys2Proof.Machine
end

section
/-! PROOFS. What a command leaves unchanged and what it reads: the frames, two states that agree on a command's inputs, and the
completion of a command in flight. -/

namespace Sys2Proof.Machine

/-! ### What a command writes, as a function -/

/-- The state that a command hands to `complete` when all its checks pass. -/
def written : Instr → State → State
  | .load vd n, s => s.setVreg vd n s.hdataValue
  | .vxor vd va vb, s => s.setVreg vd (s.vreg va).len ((s.vreg va).data ^^^ (s.vreg vb).data)
  | .vand vd va vb, s => s.setVreg vd (s.vreg va).len ((s.vreg va).data &&& (s.vreg vb).data)
  | .vnot vd va, s => s.setVreg vd (s.vreg va).len (~~~(s.vreg va).data &&& mask (s.vreg va).len)
  | .enc vd va, s => s.setVreg vd (endDim s.order.toNat) (encf s.order.toNat (s.vreg va).data)
  | .dec vd va, s => s.setVreg vd (startDim s.order.toNat) (decf s.order.toNat (s.vreg va).data)
  | .hdist va vb, s =>
    s.setResults (BitVec.ofNat 32 (hammingDist (s.vreg va).data (s.vreg vb).data (s.vreg va).len)) 0
  | .srch vd va, s =>
    (s.setVreg vd (endDim s.order.toNat) (srchf s.order.toNat (s.vreg va).data).codeword).setResults
      ((srchf s.order.toNat (s.vreg va).data).msg.setWidth 32)
      (BitVec.ofInt 32 (srchf s.order.toNat (s.vreg va).data).dist)
  | .fsrch vd va, s =>
    (s.setVreg vd (endDim s.order.toNat) (fsrchf s.order.toNat (s.vreg va).data).codeword).setResults
      (BitVec.ofNat 32 (fsrchf s.order.toNat (s.vreg va).data).msg)
      (BitVec.ofInt 32 (fsrchf s.order.toNat (s.vreg va).data).peak)

theorem Writes.eq_written {i : Instr} {s u : State} (w : Writes i s u) : u = written i s := by
  cases w <;> rfl

/-- A command that answers a next state raised one error, or completed with what it writes. -/
theorem exec_next_written {i : Instr} {s t : State} (h : exec i s = .next t) :
    (∃ e : ErrorKind, t = { s with errcode := e.code, err := true, cmdl := none }) ∨
    t = { written i s with errcode := 0, cmdl := none } := by
  obtain raised | ⟨u, w, rfl⟩ := exec_next h
  · exact .inl raised
  · exact .inr (by rw [w.eq_written])

/-! ### Frames (rules R17, R26, R85, R86) -/

/-- Settles O39: an error writes three fields, and a success keeps ERR. -/
theorem failureHasNoOtherEffect : Obligations.FailureHasNoOtherEffect := by
  intro i s t h
  obtain ⟨e, rfl⟩ | ⟨u, w, rfl⟩ := exec_next h
  · exact ⟨fun _ => rfl, fun success => absurd success e.code_ne_zero⟩
  · refine ⟨fun failure => absurd rfl failure, fun _ => ?_⟩
    rw [w.frame]

/-- Settles O41: an error keeps every register, and what a success writes names the fields it touches. -/
theorem commandFrames : Obligations.CommandFrames := by
  refine fun vd va vb n s t => ⟨fun i mem h => ?_, fun i mem h => ?_, fun h => ?_⟩ <;>
    obtain ⟨e, rfl⟩ | rfl := exec_next_written h
  · exact ⟨rfl, fun _ _ => rfl⟩
  · simp only [List.mem_cons, List.not_mem_nil, or_false] at mem
    obtain rfl | rfl | rfl | rfl | rfl | rfl := mem
    all_goals exact ⟨rfl, fun k other => s.vreg_setVreg_other _ _ other⟩
  · exact ⟨rfl, fun _ _ => rfl⟩
  · simp only [List.mem_cons, List.not_mem_nil, or_false] at mem
    obtain rfl | rfl := mem
    all_goals exact ⟨rfl, fun k other => s.vreg_setVreg_other _ _ other⟩
  · rfl
  · rfl

/-! ### One command on two states

The checks of a command look at its inputs only, so on two states that agree on these it takes the same way: it raises the
same error, or it completes with what it writes on each. -/

/-- s and u hold the same in what the command reads: HDATA for LOAD, the source registers for the others, and ORDER for the code
commands (rules R27, R57, R62). -/
def SameInputs : Instr → State → State → Prop
  | .load _ _, s, u => s.hdata = u.hdata
  | .vxor _ va vb, s, u => s.vreg va = u.vreg va ∧ s.vreg vb = u.vreg vb
  | .vand _ va vb, s, u => s.vreg va = u.vreg va ∧ s.vreg vb = u.vreg vb
  | .vnot _ va, s, u => s.vreg va = u.vreg va
  | .enc _ va, s, u => s.vreg va = u.vreg va ∧ s.order = u.order
  | .dec _ va, s, u => s.vreg va = u.vreg va ∧ s.order = u.order
  | .hdist va vb, s, u => s.vreg va = u.vreg va ∧ s.vreg vb = u.vreg vb
  | .srch _ va, s, u => s.vreg va = u.vreg va ∧ s.order = u.order
  | .fsrch _ va, s, u => s.vreg va = u.vreg va ∧ s.order = u.order

/-- States with the same registers agree on the inputs of every command. -/
theorem sameInputs_of_registers {s u : State} (v : s.v = u.v) (order : s.order = u.order) (hdata : s.hdata = u.hdata)
    (i : Instr) : SameInputs i s u := by
  have vreg : ∀ k, s.vreg k = u.vreg k := fun k => congrArg (·[k]) v
  cases i with
  | load => exact hdata
  | vnot _ va => exact vreg va
  | vxor _ va vb | vand _ va vb | hdist va vb => exact ⟨vreg va, vreg vb⟩
  | enc _ va | dec _ va | srch _ va | fsrch _ va => exact ⟨vreg va, order⟩

section
variable {R : Answer → Answer → Prop} {s u : State} (raised : ∀ e, R (raiseError e s) (raiseError e u))
include raised

theorem check_related {p q : Prop} [Decidable p] [Decidable q] (e : ErrorKind) (same : p ↔ q) {rest rest' : Answer}
    (later : R rest rest') :
    R (if p then raiseError e s else rest) (if q then raiseError e u else rest') := by
  by_cases h : p
  · rw [if_pos h, if_pos (same.mp h)]
    exact raised e
  · rwa [if_neg h, if_neg (mt same.mpr h)]

theorem needOrder_related (same : s.order = u.order) {rest rest' : Nat → Answer}
    (later : R (rest s.order.toNat) (rest' u.order.toNat)) : R (needOrder s rest) (needOrder u rest') := by
  obtain ⟨invalid, e⟩ | ⟨valid, e⟩ := needOrder_cases s rest <;> rw [e]
  · rw [needOrder_invalid rest' (same ▸ invalid)]
    exact raised .invalidOrder
  · rwa [needOrder_valid rest' (same ▸ valid)]

/-- The checks of VXOR, VAND and HDIST. -/
theorem twoOperands_related {va vb : VNum} (a : s.vreg va = u.vreg va) (b : s.vreg vb = u.vreg vb) {rest rest' : Answer}
    (later : R rest rest') :
    R (needVec va s (needVec vb s (sameLen va vb s rest))) (needVec va u (needVec vb u (sameLen va vb u rest'))) :=
  check_related raised _ (by rw [a]) (check_related raised _ (by rw [b]) (check_related raised _ (by rw [a, b]) later))

/-- The checks of ENC, DEC, SRCH and FSRCH. -/
theorem codeOperand_related {va : VNum} (a : s.vreg va = u.vreg va) (order : s.order = u.order) (n : Nat → Nat)
    {rest rest' : Nat → Answer} (later : R (rest s.order.toNat) (rest' u.order.toNat)) :
    R (needOrder s fun r => needVec va s (needLen va (n r) s (rest r)))
      (needOrder u fun r => needVec va u (needLen va (n r) u (rest' r))) :=
  needOrder_related raised order
    (check_related raised _ (by rw [a]) (check_related raised _ (by rw [a, order]) later))

/-- The answers of a command on two states that agree on its inputs are related when the errors are and the completions
are. -/
theorem exec_related {i : Instr} (same : SameInputs i s u)
    (completed : R (complete (written i s)) (complete (written i u))) : R (exec i s) (exec i u) := by
  cases i with
  | load vd n =>
    have value : s.hdataValue = u.hdataValue := congrArg dataOfWords same
    exact check_related raised _ Iff.rfl (check_related raised _ (by rw [value]) completed)
  | vnot vd va => exact check_related raised _ (by rw [same]) completed
  | vxor vd va vb | vand vd va vb | hdist va vb => exact twoOperands_related raised same.1 same.2 completed
  | enc vd va =>
    rw [exec, exec]
    exact codeOperand_related raised same.1 same.2 startDim completed
  | dec vd va | srch vd va | fsrch vd va =>
    rw [exec, exec]
    exact codeOperand_related raised same.1 same.2 endDim completed

end

/-! ### What a command does not read (10_state.md sections 1 and 5) -/

/-- s with other values of ERR, OVR and ERRCODE. -/
def State.withFlags (a b : Bool) (c : BitVec 8) (s : State) : State := { s with err := a, ovr := b, errcode := c }

/-- The second answer is the first with the flags a command finds: ERR is kept by a success, OVR by every command. -/
def SameButFlags (a b : Bool) (x y : Answer) : Prop :=
  ∀ t, x = .next t → y = .next { t with err := if t.errcode = 0 then a else true, ovr := b }

/-- No command reads ERR, OVR or ERRCODE. -/
theorem exec_withFlags (i : Instr) (s : State) (a b : Bool) (c : BitVec 8) :
    SameButFlags a b (exec i s) (exec i (s.withFlags a b c)) := by
  refine exec_related (fun e t raised => ?_) (sameInputs_of_registers (s := s) (u := s.withFlags a b c) rfl rfl rfl i)
    fun t completed => ?_
  · rw [raiseError_next raised, if_neg e.code_ne_zero]
    rfl
  · rw [complete_next completed, if_pos rfl]
    cases i <;> rfl

/-- Both answers are next states, which differ in ORDER at most. -/
def SameButOrder (r : BitVec 4) (x y : Answer) : Prop := ∃ t, x = .next t ∧ y = .next { t with order := r }

/-- Only the code commands read ORDER. -/
theorem exec_withOrder (vd va vb : VNum) (n : Nat) (r : BitVec 4) (s : State) {i : Instr}
    (mem : i ∈ [Instr.load vd n, .vxor vd va vb, .vand vd va vb, .vnot vd va, .hdist va vb]) :
    SameButOrder r (exec i s) (exec i { s with order := r }) := by
  simp only [List.mem_cons, List.not_mem_nil, or_false] at mem
  obtain rfl | rfl | rfl | rfl | rfl := mem
  case inl | inr.inr.inr.inl => exact exec_related (fun e => ⟨_, rfl, rfl⟩) rfl ⟨_, rfl, rfl⟩
  all_goals exact exec_related (fun e => ⟨_, rfl, rfl⟩) ⟨rfl, rfl⟩ ⟨_, rfl, rfl⟩

/-- Both answers are next states with one error code, and when it is 0 their results are related. -/
def SameOutcome (P : State → State → Prop) (x y : Answer) : Prop :=
  ∃ t w, x = .next t ∧ y = .next w ∧ t.errcode = w.errcode ∧ (t.errcode = 0 → P t w)

/-- On two states that agree on its inputs a command gives one error code, and on success it completes on both. -/
theorem exec_sameOutcome {P : State → State → Prop} {i : Instr} {s u : State} (same : SameInputs i s u)
    (results : P { written i s with errcode := 0, cmdl := none } { written i u with errcode := 0, cmdl := none }) :
    SameOutcome P (exec i s) (exec i u) :=
  exec_related (fun e => ⟨_, _, rfl, rfl, rfl, fun success => absurd success e.code_ne_zero⟩) same
    ⟨_, _, rfl, rfl, rfl, fun _ => results⟩

/-- A written register is the same on two states when what is written is. -/
theorem setVreg_vreg_congr (s u : State) (vd : VNum) {n n' : Nat} {d d' : Data} (len : n = n') (data : d = d') :
    (s.setVreg vd n d).vreg vd = (u.setVreg vd n' d').vreg vd := by
  rw [State.vreg_setVreg_same, State.vreg_setVreg_same, len, data]

/-- Settles O40: each clause says what a command's answers on two states have in common. -/
theorem commandsReadOnlyTheirInputs : Obligations.CommandsReadOnlyTheirInputs := by
  refine ⟨fun i s t a b c h => exec_withFlags i s a b c t h, fun vd va vb n r s i mem => exec_withOrder vd va vb n r s mem,
    fun vd va vb n s u => ⟨fun hdata => ?_, fun a b i mem => ?_, fun a => ?_, fun a order i mem => ?_,
      fun a order i mem => ?_, fun a b => ?_⟩⟩
  · exact exec_sameOutcome hdata (setVreg_vreg_congr s u vd rfl (congrArg dataOfWords hdata))
  · obtain rfl | rfl : i = .vxor vd va vb ∨ i = .vand vd va vb := by simpa using mem
    all_goals exact exec_sameOutcome ⟨a, b⟩ (setVreg_vreg_congr s u vd (by rw [a]) (by rw [a, b]))
  · exact exec_sameOutcome a (setVreg_vreg_congr s u vd (by rw [a]) (by rw [a]))
  · obtain rfl | rfl : i = .enc vd va ∨ i = .dec vd va := by simpa using mem
    all_goals exact exec_sameOutcome ⟨a, order⟩ (setVreg_vreg_congr s u vd (by rw [order]) (by rw [a, order]))
  · obtain rfl | rfl : i = .srch vd va ∨ i = .fsrch vd va := by simpa using mem
    all_goals
      refine exec_sameOutcome ⟨a, order⟩ ⟨setVreg_vreg_congr s u vd (by rw [order]) (by rw [a, order]), ?_⟩
      simp only [written, State.setResults_result0, State.setResults_result1, a, order, and_self]
  · refine exec_sameOutcome ⟨a, b⟩ ?_
    simp only [written, State.setResults_result0, State.setResults_result1, a, b, and_self]

/-! ### The completion of a command in flight (rules R102, R104) -/

/-- Both answers are next states with the same vector registers, results and error code. -/
def SameRegisters (x y : Answer) : Prop :=
  ∃ t w, x = .next t ∧ y = .next w ∧ t.v = w.v ∧ t.result0 = w.result0 ∧ t.result1 = w.result1 ∧
    t.errcode = w.errcode

/-- A command gives the same registers on two states with the same registers. -/
theorem KeepsRegisters.exec {s t : State} (kept : KeepsRegisters s t) (i : Instr) :
    SameRegisters (exec i t) (exec i s) := by
  have vreg : ∀ k, t.vreg k = s.vreg k := fun k => congrArg (·[k]) kept.v
  refine exec_related (fun e => ⟨_, _, rfl, rfl, kept.v, kept.result0, kept.result1, rfl⟩)
    (sameInputs_of_registers kept.v kept.order kept.hdata i) ⟨_, _, rfl, rfl, ?_, ?_, ?_, rfl⟩
  · cases i <;> simp [written, vreg, State.hdataValue, kept.v, kept.order, kept.hdata]
  · cases i <;> simp [written, vreg, kept.order, kept.result0]
  · cases i <;> simp [written, vreg, kept.order, kept.result1]

theorem KeepsRegisters.trans {s t u : State} (first : KeepsRegisters s t) (second : KeepsRegisters t u) :
    KeepsRegisters s u :=
  ⟨second.cmdl.trans first.cmdl, second.v.trans first.v, second.result0.trans first.result0,
    second.result1.trans first.result1, second.errcode.trans first.errcode, second.order.trans first.order,
    second.hdata.trans first.hdata⟩

/-- w is in flight with k steps to pass, and nothing at the port or the reset line abandons it. -/
structure InFlight (w : Word) (k : Nat) (s : State) : Prop where
  cmdl : s.cmdl = some w
  wait : s.wait = k
  released : s.inReset = false
  noReset : NoReset s

/-- A step brings a command in flight one step nearer to its completion, whatever the host does. -/
theorem InFlight.step {w : Word} {k : Nat} {s : State} (h : InFlight w (k + 1) s) :
    ∃ t, step s = .next t ∧ KeepsRegisters s t ∧ InFlight w k t := by
  obtain ⟨cmdl, wait, released, noReset⟩ := h
  have notDue : s.wait ≠ 0 := by omega
  have notHead : s.inputs.head? ≠ some .resetAssert := fun head => noReset (List.mem_of_mem_head? head)
  have counted : s.tick.wait = k := by rw [State.tick_wait cmdl, wait, Nat.add_sub_cancel]
  have serve := step_notDue (.inr notDue)
  suffices ∃ t, serveNext s.tick = .next t ∧ t.wait = k ∧ t.inReset = false ∧ NoReset t by
    obtain ⟨t, run, wait', released', noReset'⟩ := this
    have kept := step_keepsRegisters cmdl notDue notHead (serve.trans run)
    exact ⟨t, serve.trans run, kept, kept.cmdl.trans cmdl, wait', released', noReset'⟩
  rw [← State.tick_inReset] at released
  rw [← State.tick_inputs] at notHead
  rw [NoReset, ← State.tick_inputs] at noReset
  cases inputs : s.tick.inputs with
  | nil => exact ⟨_, serveNext_nil inputs, counted, released, noReset⟩
  | cons e rest =>
    obtain ⟨t, served⟩ := serveEvent_next e (s := { s.tick with inputs := rest }) released
    have notAssert : e ≠ .resetAssert := fun assert => notHead (by rw [inputs, assert]; rfl)
    have noResetRest : PortEvent.resetAssert ∉ rest := fun later => noReset (inputs ▸ List.mem_cons_of_mem e later)
    obtain ⟨⟨-, -, -, -, -, -, -, wait', -⟩, reset, remaining⟩ :=
      serveEvent_busy (s := { s.tick with inputs := rest }) notAssert
        ((State.busy_iff _).mpr ⟨w, s.tick_cmdl.trans cmdl⟩) served
    refine ⟨t, (serveNext_cons inputs).trans served, wait'.trans counted, reset.elim (·.trans released) id, ?_⟩
    obtain same | polled := remaining
    · rwa [NoReset, same]
    · rw [NoReset, polled]
      exact List.not_mem_cons_of_ne_of_not_mem (by decide) noResetRest

/-- A run whose first step answers a next state goes on from there. -/
theorem run_succ {s t : State} (first : step s = .next t) (k : Nat) :
    Host.Core.run Sys2Proof.core (k + 1) s = Host.Core.run Sys2Proof.core k t := by
  have stepped : Sys2Proof.core.step s = .next t := first
  simp only [Host.Core.run, stepped]

/-- After k + 1 steps the command has been performed, on a state with the registers of the first. -/
theorem InFlight.run {w : Word} {i : Instr} (decoded : decode w = .ok i) {k : Nat} {s : State} (h : InFlight w k s) :
    ∃ s' t, Host.Core.run Sys2Proof.core (k + 1) s = .next t ∧ KeepsRegisters s s' ∧ exec i s' = .next t := by
  induction k generalizing s with
  | zero =>
    obtain ⟨t, run, -⟩ := everyCommandCompletes i s
    have last : Machine.step s = .next t := by rw [step_due h.cmdl h.wait, runCommand_ok s decoded, run]
    exact ⟨s, t, run_succ last 0, ⟨rfl, rfl, rfl, rfl, rfl, rfl, rfl⟩, run⟩
  | succ k ih =>
    obtain ⟨s₁, first, kept, h₁⟩ := h.step
    obtain ⟨s', t, rest, kept', run⟩ := ih h₁
    exact ⟨s', t, (run_succ first _).trans rest, kept.trans kept', run⟩

/-- Settles O54: the command is performed on the registers of the first state. -/
theorem commandCompletesWithItsInputs : Obligations.CommandCompletesWithItsInputs := by
  intro s w i cmdl decoded released noReset
  obtain ⟨s', t, run, kept, completion⟩ := InFlight.run decoded ⟨cmdl, rfl, released, noReset⟩
  obtain ⟨t', u, result, expected, v, result0, result1, errcode⟩ := kept.exec i
  obtain rfl := Host.Outcome.next.inj (completion.symm.trans result)
  have frame := exec_frame completion
  refine ⟨t, u, run, expected, by rw [frame], v, result0, result1, errcode, ?_, ?_⟩ <;> rw [frame]
  · exact kept.order
  · exact kept.hdata

end Sys2Proof.Machine
end

section
/-! PROOFS. What the host sees: STATUS, accesses to the window, reads, reset, a WAIT and the end of a host program. -/

namespace Sys2Proof.Machine

/-! ### STATUS (rule R25) -/

theorem getLsbD_statusWord_err (s : State) : s.statusWord.getLsbD 1 = s.err := by
  simp only [State.statusWord, BitVec.getLsbD_append]
  rw [if_neg (by decide), if_pos (by decide)]
  cases s.err <;> rfl

theorem getLsbD_statusWord_ovr (s : State) : s.statusWord.getLsbD 2 = s.ovr := by
  simp only [State.statusWord, BitVec.getLsbD_append]
  rw [if_neg (by decide), if_neg (by decide), if_pos (by decide)]
  cases s.ovr <;> rfl

/-- Settles O45: the three flags, ERRCODE, and the reserved bits around it. -/
theorem statusFieldsAndClear : Obligations.StatusFieldsAndClear := by
  refine fun s x => ⟨fun k _ => ?_, portWrite_status x s⟩
  match k with
  | 0 => exact portRead_status_busy s
  | 1 => exact getLsbD_statusWord_err s
  | 2 => exact getLsbD_statusWord_ovr s
  | k + 3 =>
    rw [portRead_status, if_neg (by omega), if_neg (by omega), if_neg (by omega)]
    split
    · next field => exact getLsbD_statusWord_errcode s field.1 field.2
    · next outside => exact getLsbD_statusWord_reserved s (by omega)

/-! ### Accesses to the window (rules R19, R36, R40) -/

/-- An address outside the window has no offset in it. -/
theorem windowOffset_outside {addr : Nat} (h : addr < Config.base ∨ Config.base + 512 ≤ addr) :
    windowOffset addr = none :=
  if_neg (by rw [Config.windowSize]; omega)

/-- Settles O51: an access at BASE + off is served with reset released, and one outside is the platform's business. -/
theorem windowAtBase : Obligations.WindowAtBase := by
  refine ⟨Nat.mul_mod_right 512 _, fun s off width inside released => ?_, fun s off width x inside released => ?_,
    fun s addr width x outside => ?_⟩
  · rw [serveEvent_read (windowOffset_base_add inside), unlessReset_released _ released]
    rfl
  · obtain ⟨-, -, -, -, -, -, accesses⟩ := portWrite_keeps off width x s
    rw [serveEvent_write (windowOffset_base_add inside), unlessReset_released _ released, State.serveWrite_eq,
      State.record, accesses]
  · have elsewhere := windowOffset_outside outside
    exact ⟨serveEvent_read_outside elsewhere width s, serveEvent_write_outside elsewhere width x s⟩

/-! ### Reads and repeated writes (20_memory.md section 3) -/

/-- Serving a read changes the list of accesses at most. -/
theorem serveEvent_read_frame {addr width : Nat} {s t : State} (h : serveEvent (.read addr width) s = .next t) :
    t = { s with accesses := t.accesses } := by
  cases inside : windowOffset addr with
  | none =>
    cases (serveEvent_read_outside inside width s).symm.trans h
    rfl
  | some off =>
    obtain ⟨-, rfl⟩ := unlessReset_next ((serveEvent_read inside width s).symm.trans h)
    rfl

/-- A gated write that does not issue a command is idempotent when its effect is, whatever BUSY is (rule R103). -/
theorem unlessBusy_idem {f : State → State} (idem : ∀ s, f (f s) = f s) (busy : ∀ s, (f s).busy = s.busy) (s : State) :
    unlessBusy (unlessBusy s (f s)) (f (unlessBusy s (f s))) = unlessBusy s (f s) := by
  cases h : s.busy with
  | true =>
    rw [unlessBusy_busy _ h]
    exact unlessBusy_busy (s := { s with ovr := true }) _ h
  | false => rw [unlessBusy_idle _ h, unlessBusy_idle _ ((busy s).trans h), idem]

theorem clearStatus_idem (x : Word) (s : State) : clearStatus x (clearStatus x s) = clearStatus x s := by
  simp only [clearStatus, Bool.and_assoc, Bool.and_self]

/-- Writing a register but CMD twice is writing it once. -/
theorem writeReg_idem {reg : Reg} (h : reg ≠ .cmd) (x : Word) (s : State) :
    writeReg reg x (writeReg reg x s) = writeReg reg x s := by
  cases reg with
  | cmd => exact absurd rfl h
  | order => exact unlessBusy_idem (f := fun s => { s with order := x.setWidth 4 }) (fun _ => rfl) (fun _ => rfl) s
  | hdata j =>
    refine unlessBusy_idem (f := fun s => { s with hdata := s.hdata.set j x }) (fun s => ?_) (fun _ => rfl) s
    simp
  | status => exact clearStatus_idem x s
  | id | param | dims | result0 | result1 | vregData | vregLen | reserved => rfl

/-- Settles O50: the step of a read serves it one step nearer to the completion, and only CMD's write is not idempotent. -/
theorem readsHaveNoSideEffect : Obligations.ReadsHaveNoSideEffect := by
  refine ⟨fun s t addr width rest notDue inputs h => ?_, fun s off x notCmd => ?_⟩
  · rw [step_notDue notDue, serveNext_cons (s.tick_inputs.trans inputs), s.tick_eq] at h
    have frame := serveEvent_read_frame h
    rw [frame]
  · simp only [portWrite]
    split
    · exact writeReg_idem (mt eq_of_regAt_cmd notCmd) x s
    · rfl

/-! ### Reset (rules R98, R99) -/

/-- Settles O57: the two reset events by definition, and the host's events while reset is asserted. -/
theorem resetAbandonsCommand : Obligations.ResetAbandonsCommand := by
  refine ⟨fun s => ⟨_, rfl, rfl, rfl⟩, fun s => rfl, fun s off width x asserted inside => ?_⟩
  have found := windowOffset_base_add inside
  exact ⟨serveEvent_asserted asserted (.inr (.inl ⟨_, _, off, rfl, found⟩)),
    serveEvent_asserted asserted (.inr (.inr ⟨_, _, _, off, rfl, found⟩)), serveEvent_asserted asserted (.inl rfl)⟩

/-! ### A WAIT, and the end of a host program (rules R43, R53, R107) -/

/-- The last STATUS read in the list, newest first, returned BUSY = 0 and no CMD write is later. -/
def LastStatusIdle (accesses : List Access) : Prop :=
  ∃ later answer earlier, accesses = later ++ .read 0x014 4 answer :: earlier ∧ answer.getLsbD 0 = false ∧
    (∀ x, Access.read 0x014 4 x ∉ later) ∧ ∀ x, Access.write 0x010 4 x ∉ later

/-- An access that is neither a STATUS read nor a CMD write decides nothing. -/
theorem lastStatusIdle_cons_iff {a : Access} (notRead : ∀ x, a ≠ .read 0x014 4 x) (notWrite : ∀ x, a ≠ .write 0x010 4 x)
    (accesses : List Access) : LastStatusIdle (a :: accesses) ↔ LastStatusIdle accesses := by
  constructor
  · rintro ⟨later, answer, earlier, split, idle, noRead, noWrite⟩
    cases later with
    | nil => exact absurd (List.cons.inj split).1 (notRead answer)
    | cons b later =>
      exact ⟨later, answer, earlier, (List.cons.inj split).2, idle, fun x h => noRead x (List.mem_cons_of_mem b h),
        fun x h => noWrite x (List.mem_cons_of_mem b h)⟩
  · rintro ⟨later, answer, earlier, rfl, idle, noRead, noWrite⟩
    exact ⟨a :: later, answer, earlier, rfl, idle,
      fun x h => (List.mem_cons.mp h).elim (fun e => notRead x e.symm) (noRead x),
      fun x h => (List.mem_cons.mp h).elim (fun e => notWrite x e.symm) (noWrite x)⟩

/-- The newest access is a STATUS read: its answer decides. -/
theorem lastStatusIdle_status_iff (answer : Word) (accesses : List Access) :
    LastStatusIdle (.read 0x014 4 answer :: accesses) ↔ answer.getLsbD 0 = false := by
  constructor
  · rintro ⟨later, answer', earlier, split, idle, noRead, -⟩
    cases later with
    | nil =>
      cases split
      exact idle
    | cons b later => exact absurd ((List.cons.inj split).1 ▸ List.mem_cons_self) (noRead answer)
  · exact fun idle => ⟨[], answer, accesses, rfl, idle, fun _ => List.not_mem_nil, fun _ => List.not_mem_nil⟩

/-- The newest access is a CMD write: the host has not seen BUSY = 0 since. -/
theorem not_lastStatusIdle_cmd (x : Word) (accesses : List Access) :
    ¬ LastStatusIdle (.write 0x010 4 x :: accesses) := by
  rintro ⟨later, answer, earlier, split, -, -, noWrite⟩
  cases later with
  | nil => nomatch (List.cons.inj split).1
  | cons b later => exact noWrite x ((List.cons.inj split).1 ▸ List.mem_cons_self)

/-- The model's scan of the accesses finds exactly that. -/
theorem idleSeen_iff (accesses : List Access) : idleSeen accesses = true ↔ LastStatusIdle accesses := by
  induction accesses with
  | nil => simp [LastStatusIdle]
  | cons a earlier ih =>
    cases a with
    | read off width answer =>
      rw [idleSeen_read]
      split
      · next status =>
        obtain ⟨rfl, rfl⟩ := status
        rw [lastStatusIdle_status_iff, Bool.not_eq_true']
      · next other =>
        rw [ih, lastStatusIdle_cons_iff (by rintro _ ⟨⟩; exact other ⟨rfl, rfl⟩) (by simp)]
    | write off width x =>
      rw [idleSeen_write]
      split
      · next cmd =>
        obtain ⟨rfl, rfl⟩ := cmd
        exact iff_of_false Bool.false_ne_true (not_lastStatusIdle_cmd x earlier)
      · next other =>
        rw [ih, lastStatusIdle_cons_iff (by simp) (by rintro _ ⟨⟩; exact other ⟨rfl, rfl⟩)]

/-- Settles O55: a STATUS poll in the two cases of BUSY, and the scan of the accesses. -/
theorem waitEndsWhenIdle : Obligations.WaitEndsWhenIdle := by
  refine ⟨fun s released => ⟨?_, fun idle => ?_, fun inFlight => ?_⟩, fun s => ⟨?_, fun inv ended => ?_⟩⟩
  · rw [portRead_status_busy, State.not_busy_iff]
  · have notBusy := s.not_busy_iff.mpr idle
    rw [serveEvent, unlessReset_released _ released, notBusy]
    rfl
  · have busy : s.busy = true := Bool.eq_true_of_not_eq_false (mt s.not_busy_iff.mp inFlight)
    rw [serveEvent, unlessReset_released _ released, busy]
    rfl
  · rw [State.ended, Bool.and_eq_true, List.isEmpty_iff, idleSeen_iff]
    rfl
  · obtain ⟨-, -, -, -, seen⟩ := inv
    rw [State.ended, Bool.and_eq_true] at ended
    exact seen ended.2

end Sys2Proof.Machine
end

section
/-! PROOFS. The code as a linear code, with its weights and its minimum distance; what ENC followed by DEC gives, what the
pseudo-instructions give, and which codeword the exhaustive search finds. -/

namespace Sys2Proof.Machine

/-! ### The pseudo-instructions (rule R53) -/

/-- A distance in RESULT0 is 0 exactly when the two registers are equal. -/
theorem hammingDist_word_eq_zero_iff {x y : VReg} (hx : RegWf x) (hy : RegWf y) (same : x.len = y.len) :
    BitVec.ofNat 32 (hammingDist x.data y.data x.len) = 0 ↔ x = y := by
  obtain ⟨n, a⟩ := x
  obtain ⟨m, b⟩ := y
  obtain rfl : n = m := same
  rw [← BitVec.toNat_inj, toNat_ofNat_hammingDist, VReg.mk.injEq, ← hammingDist_eq_zero_iff hx hy]
  simp

/-- Settles O14: a product with itself is the operand, a sum with itself is 0, and a distance is 0 between equal vectors. -/
theorem pseudoCommandEffects : Obligations.PseudoCommandEffects := by
  refine fun vd va vb s held => ⟨⟨_, execVand_ok held rfl, ?_⟩, ⟨_, execVxor_ok held rfl, ?_⟩, fun wfa wfb same =>
    ⟨_, execHdist_ok held same, hammingDist_word_eq_zero_iff wfa wfb same⟩⟩
  · exact (s.vreg_setVreg_same vd _ _).trans (congrArg (VReg.mk _) BitVec.and_self)
  · exact (s.vreg_setVreg_same vd _ _).trans (congrArg (VReg.mk _) BitVec.xor_self)

/-! ### The code is linear (41_encode.md section 5, items 1 and 2) -/

theorem encodeBit_xor (r : Nat) (m₁ m₂ : Data) (c : Nat) :
    encodeBit r (m₁ ^^^ m₂) c = (encodeBit r m₁ c ^^ encodeBit r m₂ c) := by
  simp only [encodeBit, BitVec.getLsbD_xor, Bool.and_xor_distrib_right, xorBelow_xor]

theorem encf_xor (r : Nat) (m₁ m₂ : Data) : encf r (m₁ ^^^ m₂) = encf r m₁ ^^^ encf r m₂ :=
  data_ext fun c _ => by
    simp only [BitVec.getLsbD_xor, getLsbD_encf, encodeBit_xor, Bool.and_xor_distrib_left]

/-- On 128 bits, flipping the bits below n of a vector that has no others is its complement below n. -/
theorem xor_mask_of_regWf {d : Data} {n : Nat} (wf : RegWf ⟨n, d⟩) : d ^^^ mask n = ~~~d &&& mask n :=
  data_ext fun k hk => by
    rw [getLsbD_not_and_mask d n hk, BitVec.getLsbD_xor, getLsbD_mask, decide_eq_true hk, Bool.and_true]
    by_cases below : k < n
    · simp [below]
    · simp [below, wf.2 k hk (Nat.le_of_not_lt below)]

/-- Flipping bit r of a message complements its codeword. -/
theorem encf_flip_top {r : Nat} (hr : r ≤ 7) (m : Data) :
    encf r (m ^^^ 1#128 <<< r) = ~~~(encf r m) &&& mask (2 ^ r) := by
  rw [encf_xor, encf_top_bit hr]
  exact xor_mask_of_regWf (regWf_encf hr m)

/-- Settles O19: each bit of a codeword is linear in the message, and bit r stands for the all-one row. -/
theorem codeIsLinearAndComplementClosed : Obligations.CodeIsLinearAndComplementClosed := fun r _ hr =>
  ⟨encf_xor r, encf_flip_top hr⟩

/-! ### ENC, then DEC (41_encode.md section 5, item 3) -/

/-- A well-formed register of r + 1 bits holds a message of order r. -/
theorem messageFits_of_regWf {r : Nat} {x : VReg} (wf : RegWf x) (len : x.len = r + 1) : MessageFits r x.data := by
  intro k above
  by_cases hk : k < 128
  · exact wf.2 k hk (len.trans_le above)
  · exact BitVec.getLsbD_of_ge _ _ (Nat.le_of_not_lt hk)

/-- What ENC leaves in its destination, and that it keeps ORDER. -/
theorem exec_enc_vreg (vd : VNum) {va : VNum} {s : State} (hr : 1 ≤ s.order.toNat ∧ s.order.toNat ≤ 7)
    (len : (s.vreg va).len = s.order.toNat + 1) :
    ∃ t, exec (.enc vd va) s = .next t ∧ t.order = s.order ∧
      t.vreg vd = ⟨2 ^ s.order.toNat, encf s.order.toNat (s.vreg va).data⟩ :=
  ⟨_, execEnc_ok hr len, rfl, s.vreg_setVreg_same vd _ _⟩

/-- Settles O23: DEC finds the codeword in its operand and the order as it was, and DECF inverts ENCF. -/
theorem encThenDecRestoresMessage : Obligations.EncThenDecRestoresMessage := by
  intro va vb vc s low high wf len
  obtain ⟨t, encoded, order, codeword⟩ := exec_enc_vreg vb ⟨low, high⟩ len
  have valid : 1 ≤ t.order.toNat ∧ t.order.toNat ≤ 7 := order ▸ ⟨low, high⟩
  obtain ⟨u, decoded, ok, result⟩ := exec_dec_vreg vc (va := vb) valid (by rw [codeword, order])
  refine ⟨t, u, encoded, decoded, ok, ?_⟩
  rw [result, codeword, order, decf_encf high (messageFits_of_regWf wf len), ← len]

/-! ### Weights (41_encode.md section 5, items 4 and 5) -/

/-- The weight of a codeword is its distance from the codeword of 0. -/
theorem popcount_encf {r : Nat} (hr : r ≤ 7) (m : Data) : popcount (encf r m) = popcountBelow (encf r m) (2 ^ r) :=
  popcountBelow_eq_of_zero_above (endDim_le hr) fun _ above _ => getLsbD_encf_of_ge m above

/-- The signs of a codeword's bits are a column of the sign matrix, whose sum is known: below 2^r only the message 0 has a
weight that is not half the length. -/
theorem popcount_encf_of_lt {r j : Nat} (hpos : 1 ≤ r) (hr : r ≤ 7) (hj : j < 2 ^ r) :
    popcount (encf r (BitVec.ofNat 128 j)) = if j = 0 then 0 else 2 ^ (r - 1) := by
  have signs : ∑ i ∈ Finset.range (2 ^ r), signMatrix r i j =
      2 ^ r - 2 * (popcount (encf r (BitVec.ofNat 128 j)) : Int) := by
    rw [popcount_encf hr, Finset.sum_congr rfl fun i hi => signMatrix_eq_signOf_encf hr (Finset.mem_range.mp hi) hj,
      ← sumBelow_eq_sum, sumBelow_signOf]
    simp
  have halves : (2 ^ (r - 1) + 2 ^ (r - 1) : Int) = 2 ^ r := by exact_mod_cast Nat.two_pow_pred_add_two_pow_pred hpos
  rw [sum_signMatrix_column hj] at signs
  by_cases zero : j = 0
  · rw [if_pos zero] at signs ⊢
    omega
  · rw [if_neg zero] at signs ⊢
    zify
    omega

/-- The weights of complementary codewords add up to the length. -/
theorem popcount_encf_flip_top {r : Nat} (hr : r ≤ 7) (m : Data) :
    popcount (encf r m) + popcount (encf r (m ^^^ 1#128 <<< r)) = 2 ^ r := by
  rw [popcount_encf hr, popcount_encf hr]
  exact popcountBelow_add_of_complement fun c hc => getLsbD_encf_flip_top hr m hc

/-- A codeword is that of a message below 2^r, or its complement. -/
theorem exists_encf_eq {r : Nat} (hr : r ≤ 7) (m : Data) :
    ∃ j < 2 ^ r, encf r m = encf r (BitVec.ofNat 128 j) ∨ encf r m = encf r (BitVec.ofNat 128 j ^^^ 1#128 <<< r) := by
  have low : ∀ k < r, (BitVec.ofNat 128 (m.toNat % 2 ^ r)).getLsbD k = m.getLsbD k := fun k hk => by
    rw [getLsbD_ofNat_message (by omega), Nat.testBit_mod_two_pow, decide_eq_true hk, Bool.true_and]
    rfl
  have top : (BitVec.ofNat 128 (m.toNat % 2 ^ r)).getLsbD r = false := by
    rw [getLsbD_ofNat_message (by omega), Nat.testBit_mod_two_pow, decide_eq_false (lt_irrefl r), Bool.false_and]
  refine ⟨m.toNat % 2 ^ r, Nat.mod_lt _ (Nat.two_pow_pos r), ?_⟩
  cases bit : m.getLsbD r with
  | false =>
    refine .inl (tabulate_congr fun c _ => encodeBit_congr (fun k hk => ?_) c)
    obtain below | rfl := Nat.lt_succ_iff_lt_or_eq.mp hk
    · exact (low k below).symm
    · rw [bit, top]
  | true =>
    refine .inr (tabulate_congr fun c _ => encodeBit_congr (fun k hk => ?_) c)
    rw [BitVec.getLsbD_xor, getLsbD_bit r k (by omega)]
    obtain below | rfl := Nat.lt_succ_iff_lt_or_eq.mp hk
    · rw [low k below, decide_eq_false below.ne, Bool.xor_false]
    · rw [bit, top, decide_eq_true rfl, Bool.false_xor]

/-- The three weights of the code. -/
theorem popcount_encf_mem {r : Nat} (hpos : 1 ≤ r) (hr : r ≤ 7) (m : Data) :
    popcount (encf r m) ∈ [0, 2 ^ (r - 1), 2 ^ r] := by
  have halves := Nat.two_pow_pred_add_two_pow_pred hpos
  obtain ⟨j, hj, e⟩ := exists_encf_eq hr m
  have weight := popcount_encf_of_lt hpos hr hj
  have sum := popcount_encf_flip_top hr (BitVec.ofNat 128 j)
  simp only [List.mem_cons, List.not_mem_nil, or_false]
  obtain e | e := e <;> rw [e] <;> split at weight <;> omega

/-- Only the message 0 has the weight 0, since DECF inverts ENCF. -/
theorem half_length_le_popcount_encf {r : Nat} (hpos : 1 ≤ r) (hr : r ≤ 7) {m : Data} (fits : MessageFits r m)
    (nonzero : m ≠ 0) : 2 ^ (r - 1) ≤ popcount (encf r m) := by
  have positive : popcount (encf r m) ≠ 0 := fun zero => by
    have bits := (popcountBelow_eq_zero_iff (encf r m) 128).mp zero
    have code : encf r m = 0 := data_ext fun k hk => (bits k hk).trans BitVec.getLsbD_zero.symm
    exact nonzero ((decf_encf hr fits).symm.trans ((congrArg (decf r) code).trans (decf_zero hr)))
  have weights := popcount_encf_mem hpos hr m
  have length : 2 ^ (r - 1) ≤ 2 ^ r := Nat.pow_le_pow_right (by decide) (Nat.sub_le r 1)
  simp only [List.mem_cons, List.not_mem_nil, or_false] at weights
  omega

theorem MessageFits.xor {r : Nat} {m₁ m₂ : Data} (h₁ : MessageFits r m₁) (h₂ : MessageFits r m₂) :
    MessageFits r (m₁ ^^^ m₂) := fun k hk => by
  rw [BitVec.getLsbD_xor, h₁ k hk, h₂ k hk, Bool.xor_false]

/-- The minimum distance: by linearity the distance of two codewords is the weight of a third. -/
theorem half_length_le_popcount_xor {r : Nat} (hpos : 1 ≤ r) (hr : r ≤ 7) {m₁ m₂ : Data} (h₁ : MessageFits r m₁)
    (h₂ : MessageFits r m₂) (different : m₁ ≠ m₂) : 2 ^ (r - 1) ≤ popcount (encf r m₁ ^^^ encf r m₂) := by
  rw [← encf_xor]
  exact half_length_le_popcount_encf hpos hr (h₁.xor h₂) (mt BitVec.xor_eq_zero_iff.mp different)

/-- Settles O24: the three weights, the minimum distance, and the messages 0 and 1 at exactly that distance. -/
theorem weightsAndMinimumDistance : Obligations.WeightsAndMinimumDistance := by
  refine fun r hpos hr => ⟨popcount_encf_mem hpos hr, fun m₁ m₂ h₁ h₂ => half_length_le_popcount_xor hpos hr
    (messageFits_of_toNat_lt h₁) (messageFits_of_toNat_lt h₂), 0, 1, Nat.two_pow_pos _, ?_, by decide, ?_⟩
  · exact Nat.one_lt_two_pow (Nat.succ_ne_zero r)
  · rw [encf_zero]
    refine (congrArg popcount BitVec.zero_xor).trans ?_
    exact popcount_encf_of_lt hpos hr (Nat.one_lt_two_pow (by omega))

/-! ### The winner of the search and what it returns (43_search.md section 6) -/

/-- Settles O29: the least distance is the largest magnitude, and Parseval keeps the peak from being 0. -/
theorem searchWinnerIsLowest : Obligations.SearchWinnerIsLowest := by
  intro r _ hr y
  obtain ⟨k, best, first⟩ := exists_searchBest hr y
  have hk := first.lt_two_pow hr
  have nonzero := (first.isPeak hr).transform_ne_zero
  obtain ⟨inside, least, earlier⟩ := first
  have magnitude : ∀ j, 2 * (candidateAt r y j).dist = endDim r - |score r (encf r (BitVec.ofNat 128 j)) y| := fun j =>
    two_mul_impliedDist_score r _ y
  have won : (searchBest r y).score = score r (encf r (BitVec.ofNat 128 k)) y := congrArg Best.score best
  refine ⟨k, hk, congrArg Best.msg best, won, ?_⟩
  rw [won]
  refine ⟨fun j hj => ?_, fun j hj => ?_, transform_eq_score hr y hk ▸ nonzero⟩
  · have := least j hj
    have := magnitude j
    have := magnitude k
    omega
  · have := earlier j hj
    have := magnitude j
    have := magnitude k
    omega

/-- Settles O30: what SRCHF returns, and that no codeword is nearer. -/
theorem searchReturnsNearest : Obligations.SearchReturnsNearest := by
  intro r _ hr y
  obtain ⟨fits, code, dist⟩ := srchf_spec hr y
  exact ⟨fits.toNat_lt, code, dist, fun m => srchf_dist_le hr y⟩

/-- Settles O31: the codeword found is as near to the input as the one sent, so the two differ in fewer places than the
minimum distance. -/
theorem searchCorrectsErrors : Obligations.SearchCorrectsErrors := by
  intro r hr₂ hr m e hm wf few
  obtain ⟨fits, code, dist⟩ := srchf_spec hr (encf r m ^^^ e)
  have received : RegWf ⟨endDim r, encf r m ^^^ e⟩ := (regWf_encf hr m).xor wf rfl
  have flips : hammingDist (encf r m) (encf r m ^^^ e) (endDim r) = popcount e := by
    rw [hammingDist_eq_popcount (regWf_encf hr m) received, ← BitVec.xor_assoc, BitVec.xor_self, BitVec.zero_xor]
  have nearest := srchf_dist_le hr (encf r m ^^^ e) hm
  have halves : 2 ^ (r - 2) + 2 ^ (r - 2) = 2 ^ (r - 1) := Nat.two_pow_pred_add_two_pow_pred (show 0 < r - 1 by omega)
  have msg : (srchf r (encf r m ^^^ e)).msg = m := by
    by_contra different
    have apart := half_length_le_popcount_xor (Nat.one_le_of_lt hr₂) hr fits (messageFits_of_toNat_lt hm) different
    rw [← hammingDist_eq_popcount (regWf_encf hr _) (regWf_encf hr m), ← code] at apart
    have near := hammingDist_triangle (srchf r (encf r m ^^^ e)).codeword (encf r m ^^^ e) (encf r m) (endDim_le hr)
    rw [hammingDist_comm (encf r m ^^^ e), flips] at near
    omega
  exact ⟨by rw [code, msg], msg⟩

end Sys2Proof.Machine
end
